-- ==== Sys2Proof/Word.lean ====
section
/-! DEFINITION. The fixed-width words of the engine: bytes of `BUF`, 64-bit limbs, the register and
immediate fields of a command, the 128-bit command word and the 72-bit response word (rules R6, R70, R71, R81). Every other quantity of the
spec is an exact natural (rule R8) and is a `Nat` in the model. -/

namespace Sys2Proof

/-- One 8-bit byte of `BUF` (rule R35); also an error code and an opcode byte (rule R33). -/
abbrev Byte := BitVec 8

/-- One limb: "one fixed-width (64-bit) word" (rules R6, R13). -/
abbrev Limb := BitVec 64

/-- A register field of a command: a plain index `0 .. 255` (rule R73). -/
abbrev Reg := BitVec 8

/-- The `imm32` field of a command (rule R71). -/
abbrev Imm32 := BitVec 32

/-- The `imm64` field of a command (rule R71). -/
abbrev Imm64 := BitVec 64

/-- A command word of exactly 128 bits (rule R70). -/
abbrev Cmd := BitVec 128

/-- A response word of exactly 72 bits (rule R81). -/
abbrev RespWord := BitVec 72

end Sys2Proof
end

