-- ==== Sys2Proof/Config.lean ====
section
/-! DEFINITION. The parameters of the engine (rules R6, R7) and the byte that an unlisted address of `BUF`
reads as. The parameters are OPEN in the spec ("the model takes the parameter as an argument"): they are one
record, carried unchanged in the state, so that every statement about all states holds for every value of them. -/

namespace Sys2Proof

/-- The four OPEN parameters of rule R6. Fixed for the life of a model (rule R20): no step changes them. -/
structure Config where
  /-- `LMAX`, the largest `limbCount` a shape may have. -/
  lmax : Nat
  /-- `NREG`, the number of element registers. -/
  nreg : Nat
  /-- `BUFSIZE`, the number of bytes of `BUF`. -/
  bufsize : Nat
  /-- `PARTS_MAX`, the largest `parts` for which `JOIN` has scratch space. -/
  partsMax : Nat
deriving DecidableEq, Repr

/-- The ranges of rule R6. -/
abbrev Config.Ok (c : Config) : Prop :=
  (1 ≤ c.lmax ∧ c.lmax ≤ 32) ∧ (1 ≤ c.nreg ∧ c.nreg ≤ 256) ∧
    (1 ≤ c.bufsize ∧ c.bufsize ≤ 2 ^ 63) ∧ (2 ≤ c.partsMax ∧ c.partsMax ≤ 128)

/-- The reference values of rule R6 (the spec's decision D46). -/
def Config.reference : Config :=
  { lmax := 9, nreg := 64, bufsize := 4096, partsMax := 16 }

/-- What a byte of `BUF` that no cell lists reads as. DESIGN CHOICE (notes/assumptions/1.md): the reset content of
`BUF` is a free input (rule R39); the spec's own vectors take `0xA5` in every byte. Unsafe only for a statement about
`State.reset` itself: any content of `BUF` is some list of cells, and a reset event carries its own. -/
def bufFill : Byte := 0xA5

end Sys2Proof
end

