-- ==== Sys2Proof/Machine/State.lean ====
section
/-! DEFINITION. The state of the engine (rules R20 to R39) as plain data, the reasons a step can stop, and the state
after reset (rules R39, R310). -/

namespace Sys2Proof.Machine

/-- The error kinds of rule R281 that the engine produces. Codes 15 and 16 are reserved and never produced. -/
inductive ErrorKind where
  | invalidShape | lengthExceeded | bufferTooSmall | allocationFailure | illegalCommand | noShape | badRegister
  | uninit | badParts | bufferRange | badIndex | subUnderflow | resultOverflow | encodeOverflow
deriving DecidableEq, Repr

/-- A fault that stops the machine. There is none: a command that cannot be carried out reports an error kind and the
engine goes on with the next command ("The engine does not stop, stall or lock after an error", R285; `stuck` is "never
used", 93_implementation_defined.md). So this closed inductive has no constructor (DEDUCED, notes/assumptions/13.md). -/
inductive Fault where
deriving DecidableEq, Repr

/-- A refusal of the model. -/
inductive Refusal where
  /-- Raised only by an arm of `exec` for a command without a meaning yet. No arm raises it: every command of rule R74
  has its meaning. Safe: nothing is claimed about a step that is refused. -/
  | notModelled (mnemonic : String)
deriving DecidableEq, Repr

/-- One entry of the inverter's chain schedule: 1, 2, 3 or 5 (rules R25, R107). -/
inductive Factor where
  | one | two | three | five
deriving DecidableEq, Repr

/-- The shape block (rules R22 to R25): the two inputs of `DERIVE` and every constant derived from them. -/
structure Shape where
  /-- `BITS`, 32 bits, as given to `DERIVE`. -/
  bits : Imm32
  /-- `WORD`, 64 bits, as given to `DERIVE`. -/
  word : Imm64
  /-- `MODBITS`, CSR bits 11:0. -/
  modbits : Nat
  /-- `LIMBCOUNT`, CSR bits 5:0. -/
  limbcount : Nat
  /-- `BYTECOUNT`, CSR bits 8:0. -/
  bytecount : Nat
  /-- `TOPSHIFT`, CSR bits 5:0. -/
  topshift : Nat
  /-- `TOPMASK`, CSR bits 62:0. -/
  topmask : Nat
  /-- `SHIFTCOMP`, CSR bits 6:0. -/
  shiftcomp : Nat
  /-- `LS`, CSR bits 6:0. -/
  ls : Nat
  /-- `WLOW`, CSR bits 63:0. -/
  wlow : Nat
  /-- `M`, CSR bits 11:0. -/
  m : Nat
  /-- `INV_OK`, one bit, shown in `STATUS` (rule R32). -/
  invOk : Bool
  /-- `TOPW1`, one bit, shown in `STATUS` (rule R32). -/
  topw1 : Bool
  /-- `CHAINLEN`, CSR bits 5:0. -/
  chainlen : Nat
  /-- The prime's limb table `P[0..L-1]` (rule R24), limb 0 first. -/
  p : List Limb
  /-- The chain schedule `CHAIN[0..CHAINLEN-1]` (rule R25), in application order. -/
  chain : List Factor
deriving DecidableEq, Repr

/-- A response of the engine (rule R36): 8 bits of code, 64 bits of data. `Response.word` is its 72-bit word (rule R81). -/
structure Response where
  code : Byte
  data : Limb
deriving DecidableEq, Repr

/-- What the host can do to the engine: send a command word, or assert reset between two commands (rule R310). A reset
carries the new free content of `BUF`, from address 0 (rule R39; 93_implementation_defined.md W1). -/
inductive HostEvent where
  | command (word : Cmd)
  | reset (content : List Byte)
deriving DecidableEq, Repr

/-- `BUF` as cells (address, byte): addresses strictly rising, no cell holding `bufFill`, which is what an unlisted
address reads as. -/
abbrev Memory := List Host.Cell

/-- The state (rule R21), with three fields of the model's own: `cfg` (the parameters of rule R6, which no step
changes), `port` (what the host will still present on the command port, first event first) and `responses` (what the
engine has answered, the latest first). -/
structure State where
  /-- Model's own: the parameters of rule R6, fixed for the life of a model (DESIGN CHOICE, notes/assumptions/2.md). -/
  cfg : Config
  /-- The shape block; `none` is `SHAPE_VALID = 0`, in which it holds no value (rule R22; notes/assumptions/7.md). -/
  shape : Option Shape
  /-- The element registers `E[0 .. NREG-1]` with their valid bits: `none` is `V[i] = 0`, in which the register holds
  no value (rules R26, R27; notes/assumptions/7.md). -/
  e : List (Option Nat)
  /-- `ERR`, 8 bits (rule R33). -/
  err : Byte
  /-- `ERROP`, 8 bits (rule R33). -/
  errop : Byte
  /-- The byte buffer `BUF` (rule R35). -/
  buf : Memory
  /-- Model's own: the command port, the events still to come (rules R20, R310; DESIGN CHOICE, notes/assumptions/3.md). -/
  port : List HostEvent
  /-- Model's own: the responses emitted so far, the latest first (rules R36, R312; DESIGN CHOICE,
  notes/assumptions/4.md). -/
  responses : List Response
deriving DecidableEq, Repr

/-- Right after reset (rules R39, R310), for the parameters `cfg`, a free content `buf` of `BUF`, and the events `port`
the host will present. -/
def State.afterReset (cfg : Config) (buf : Memory) (port : List HostEvent) : State :=
  { cfg := cfg
    shape := none
    e := List.replicate cfg.nreg none
    err := 0
    errop := 0
    buf := buf
    port := port
    responses := [] }

/-- The machine right after reset, with the reference parameters of rule R6, nothing listed in `BUF` and no command
presented yet. -/
def State.reset : State := State.afterReset Config.reference [] []

end Sys2Proof.Machine
end

