-- ==== Sys2Proof/Machine/Flags.lean ====
section
/-! DEFINITION. There are no arithmetic flags (rule R30): no command sets one and none is read. What the spec calls
flags are the three state summaries of `STATUS` (rule R32), computed here. -/

namespace Sys2Proof.Machine

/-- `SHAPE_VALID` (rule R22). -/
def State.shapeValid (s : State) : Bool := s.shape.isSome

/-- Bit 1 of `STATUS`: 1 when `SHAPE_VALID = 1` and `TOPSHIFT = 1` (rules R25, R32). -/
def State.topw1 (s : State) : Bool :=
  match s.shape with
  | none => false
  | some sh => sh.topw1

/-- Bit 2 of `STATUS`: 1 when `SHAPE_VALID = 1` and `MODBITS - LS ≥ 1` (rules R32, R106). -/
def State.invOk (s : State) : Bool :=
  match s.shape with
  | none => false
  | some sh => sh.invOk

/-- `STATUS` (rule R32): bit 0 `SHAPE_VALID`, bit 1 `TOPW1`, bit 2 `INV_OK`, bits 63:3 read 0. -/
def State.status (s : State) : Limb :=
  BitVec.ofNat 64 (s.shapeValid.toNat + 2 * s.topw1.toNat + 4 * s.invOk.toNat)

end Sys2Proof.Machine
end

