-- ==== Sys2Proof/Syntax.lean ====
section
/-! DEFINITION. The command set (rule R74): one constructor per row of spec/opcode_table.json, with the fields its
format uses (rules R72, R79), destination first. -/

namespace Sys2Proof

/-- The 22 commands of rule R74. `ZERO`, `ONE`, `MOV` (rule R80) are spellings of `setword` and `copy`. -/
inductive Instr where
  /-- `NOP` (R109). -/
  | nop
  /-- `DERIVE bits, word` (R101). -/
  | derive (bits : Imm32) (word : Imm64)
  /-- `CLRERR` (R111). -/
  | clrerr
  /-- `RDCSR csr` (R108). -/
  | rdcsr (csr : Imm32)
  /-- `COPY Ed, Ea` (R121). -/
  | copy (rd rs1 : Reg)
  /-- `SETWORD Ed, value` (R122). -/
  | setword (rd : Reg) (value : Imm64)
  /-- `LOADBE Ed, addr, len` (R123). -/
  | loadbe (rd : Reg) (len : Imm32) (addr : Imm64)
  /-- `STOREBE Ea, addr, outLen` (R124). -/
  | storebe (rs1 : Reg) (outLen : Imm32) (addr : Imm64)
  /-- `GETLIMB Ea, i` (R125). -/
  | getlimb (rs1 : Reg) (index : Imm32)
  /-- `BUFWR addr, byte` (R126): `byte` is the whole `imm32`, whose bits 31:8 must be zero (R77). -/
  | bufwr (byte : Imm32) (addr : Imm64)
  /-- `BUFRD addr` (R127). -/
  | bufrd (addr : Imm64)
  /-- `ADD Ed, Ea, Eb` (R181). -/
  | add (rd rs1 rs2 : Reg)
  /-- `SUB Ed, Ea, Eb` (R182). -/
  | sub (rd rs1 rs2 : Reg)
  /-- `MUL Ed, Ea, Eb` (R183). -/
  | mul (rd rs1 rs2 : Reg)
  /-- `SQR Ed, Ea` (R184). -/
  | sqr (rd rs1 : Reg)
  /-- `SQRN Ed, Ea, k` (R185). -/
  | sqrn (rd rs1 : Reg) (k : Imm32)
  /-- `FRED Ed, Ea` (R186). -/
  | fred (rd rs1 : Reg)
  /-- `REDS Ed, Ea, ovf` (R158). -/
  | reds (rd rs1 : Reg) (ovf : Imm64)
  /-- `REDL Ed, Ea, Eb` (R159): low half `rs1`, high half `rs2`. -/
  | redl (rd rs1 rs2 : Reg)
  /-- `INV Ed, Ea` (R225). -/
  | inv (rd rs1 : Reg)
  /-- `SPLIT Ed, Ea, Eb, parts` (R251): first coefficient `rs1`, the point in `rs2`. -/
  | split (rd rs1 rs2 : Reg) (parts : Imm32)
  /-- `JOIN Ed, Ea, parts` (R256): register of `x_0` in `rs1`. -/
  | join (rd rs1 : Reg) (parts : Imm32)
deriving DecidableEq, Repr

end Sys2Proof
end

