-- ==== Sys2Proof/WellFormed.lean ====
section
/-! DEFINITION. Which terms of `Instr` stand for a legal command word. The types of the fields already carry their
widths (R71); the one used field with a must-be-zero part is `BUFWR`'s `imm32` (R77). -/

namespace Sys2Proof

/-- Rule R77: `BUFWR` uses only bits 7:0 of `imm32`; "No other used field has a must-be-zero part". -/
def wellFormed : Instr → Bool
  | .nop => true
  | .derive _ _ => true
  | .clrerr => true
  | .rdcsr _ => true
  | .copy _ _ => true
  | .setword _ _ => true
  | .loadbe _ _ _ => true
  | .storebe _ _ _ => true
  | .getlimb _ _ => true
  | .bufwr byte _ => decide (byte.toNat < 256)
  | .bufrd _ => true
  | .add _ _ _ => true
  | .sub _ _ _ => true
  | .mul _ _ _ => true
  | .sqr _ _ => true
  | .sqrn _ _ _ => true
  | .fred _ _ => true
  | .reds _ _ _ => true
  | .redl _ _ _ => true
  | .inv _ _ => true
  | .split _ _ _ _ => true
  | .join _ _ _ => true

end Sys2Proof
end

