-- ==== Sys2Proof/Decode.lean ====
section
/-! DEFINITION. Command words: the field layout (R71), the formats with their must-be-zero fields (R72, R76, R77), the
decoder (R74, R75), the encoder, and the machine-readable opcode table (30_encoding.md) as mask and match rows. -/

namespace Sys2Proof

/-- The six fields every command word has (rule R71). -/
structure Fields where
  opcode : Byte
  rd : Reg := 0
  rs1 : Reg := 0
  rs2 : Reg := 0
  imm32 : Imm32 := 0
  imm64 : Imm64 := 0
deriving DecidableEq, Repr

/-- The fields of a command word, at the bit positions of rule R71. -/
def fieldsOfCmd (w : Cmd) : Fields :=
  { opcode := w.extractLsb' 120 8
    rd := w.extractLsb' 112 8
    rs1 := w.extractLsb' 104 8
    rs2 := w.extractLsb' 96 8
    imm32 := w.extractLsb' 64 32
    imm64 := w.extractLsb' 0 64 }

/-- The word of six fields, by the formula at the end of rule R71. -/
def cmdOfFields (f : Fields) : Cmd :=
  BitVec.ofNat 128
    (f.opcode.toNat * 2 ^ 120 + f.rd.toNat * 2 ^ 112 + f.rs1.toNat * 2 ^ 104 + f.rs2.toNat * 2 ^ 96
      + f.imm32.toNat * 2 ^ 64 + f.imm64.toNat)

/-- The formats of rule R72: the letters are the fields a command uses. -/
inductive Format where
  | N | I | Q | IQ | DA | DQ | DIQ | AIQ | AI | DAB | DAI | DAQ | DABI
deriving DecidableEq, Repr

/-- Rule R76: every field the format does not use is zero. -/
def unusedFieldsZero : Format → Fields → Bool
  | .N, f => f.rd == 0 && f.rs1 == 0 && f.rs2 == 0 && f.imm32 == 0 && f.imm64 == 0
  | .I, f => f.rd == 0 && f.rs1 == 0 && f.rs2 == 0 && f.imm64 == 0
  | .Q, f => f.rd == 0 && f.rs1 == 0 && f.rs2 == 0 && f.imm32 == 0
  | .IQ, f => f.rd == 0 && f.rs1 == 0 && f.rs2 == 0
  | .DA, f => f.rs2 == 0 && f.imm32 == 0 && f.imm64 == 0
  | .DQ, f => f.rs1 == 0 && f.rs2 == 0 && f.imm32 == 0
  | .DIQ, f => f.rs1 == 0 && f.rs2 == 0
  | .AIQ, f => f.rd == 0 && f.rs2 == 0
  | .AI, f => f.rd == 0 && f.rs2 == 0 && f.imm64 == 0
  | .DAB, f => f.imm32 == 0 && f.imm64 == 0
  | .DAI, f => f.rs2 == 0 && f.imm64 == 0
  | .DAQ, f => f.rs2 == 0 && f.imm32 == 0
  | .DABI, f => f.imm64 == 0

/-- Why a command word is illegal; each case makes the command fail with `IllegalCommand` (R75, R76, R77). -/
inductive DecodeError where
  /-- The opcode is not one of the 22 of rule R74 (R75). -/
  | reservedOpcode (opcode : Byte)
  /-- A field the format does not use is non-zero (R76). -/
  | unusedField (opcode : Byte)
  /-- `BUFWR` with a bit of `imm32` above bit 7 set (R77). -/
  | byteTooWide (opcode : Byte)
deriving DecidableEq, Repr

/-- Accept `i` when the must-be-zero fields of its format are zero. -/
def acceptFormat (fmt : Format) (f : Fields) (i : Instr) : Except DecodeError Instr :=
  if unusedFieldsZero fmt f then .ok i else .error (.unusedField f.opcode)

/-- The opcode map of rule R74, read from the fields; every other opcode is reserved (R75). -/
def decodeFields (f : Fields) : Except DecodeError Instr :=
  match f.opcode.toNat with
  | 0x00 => acceptFormat .N f .nop
  | 0x01 => acceptFormat .IQ f (.derive f.imm32 f.imm64)
  | 0x02 => acceptFormat .N f .clrerr
  | 0x03 => acceptFormat .I f (.rdcsr f.imm32)
  | 0x10 => acceptFormat .DA f (.copy f.rd f.rs1)
  | 0x11 => acceptFormat .DQ f (.setword f.rd f.imm64)
  | 0x12 => acceptFormat .DIQ f (.loadbe f.rd f.imm32 f.imm64)
  | 0x13 => acceptFormat .AIQ f (.storebe f.rs1 f.imm32 f.imm64)
  | 0x14 => acceptFormat .AI f (.getlimb f.rs1 f.imm32)
  | 0x18 =>
    if f.imm32.toNat < 256 then acceptFormat .IQ f (.bufwr f.imm32 f.imm64)
    else .error (.byteTooWide f.opcode)
  | 0x19 => acceptFormat .Q f (.bufrd f.imm64)
  | 0x20 => acceptFormat .DAB f (.add f.rd f.rs1 f.rs2)
  | 0x21 => acceptFormat .DAB f (.sub f.rd f.rs1 f.rs2)
  | 0x22 => acceptFormat .DAB f (.mul f.rd f.rs1 f.rs2)
  | 0x23 => acceptFormat .DA f (.sqr f.rd f.rs1)
  | 0x24 => acceptFormat .DAI f (.sqrn f.rd f.rs1 f.imm32)
  | 0x25 => acceptFormat .DA f (.fred f.rd f.rs1)
  | 0x28 => acceptFormat .DAQ f (.reds f.rd f.rs1 f.imm64)
  | 0x29 => acceptFormat .DAB f (.redl f.rd f.rs1 f.rs2)
  | 0x30 => acceptFormat .DA f (.inv f.rd f.rs1)
  | 0x40 => acceptFormat .DABI f (.split f.rd f.rs1 f.rs2 f.imm32)
  | 0x41 => acceptFormat .DAI f (.join f.rd f.rs1 f.imm32)
  | _ => .error (.reservedOpcode f.opcode)

/-- The decoder: total on every 128-bit word (rules R70 to R78). -/
def decode (w : Cmd) : Except DecodeError Instr := decodeFields (fieldsOfCmd w)

/-- The opcode byte of a command word, bits 127:120: what a failing command leaves in `ERROP` (R280). -/
def opcodeByte (w : Cmd) : Byte := (fieldsOfCmd w).opcode

/-- The opcode of each command (rule R74). -/
def opcodeOf : Instr → Byte
  | .nop => 0x00
  | .derive _ _ => 0x01
  | .clrerr => 0x02
  | .rdcsr _ => 0x03
  | .copy _ _ => 0x10
  | .setword _ _ => 0x11
  | .loadbe _ _ _ => 0x12
  | .storebe _ _ _ => 0x13
  | .getlimb _ _ => 0x14
  | .bufwr _ _ => 0x18
  | .bufrd _ => 0x19
  | .add _ _ _ => 0x20
  | .sub _ _ _ => 0x21
  | .mul _ _ _ => 0x22
  | .sqr _ _ => 0x23
  | .sqrn _ _ _ => 0x24
  | .fred _ _ => 0x25
  | .reds _ _ _ => 0x28
  | .redl _ _ _ => 0x29
  | .inv _ _ => 0x30
  | .split _ _ _ _ => 0x40
  | .join _ _ _ => 0x41

/-- The mnemonic of each command (rule R74). -/
def mnemonicOf : Instr → String
  | .nop => "NOP"
  | .derive _ _ => "DERIVE"
  | .clrerr => "CLRERR"
  | .rdcsr _ => "RDCSR"
  | .copy _ _ => "COPY"
  | .setword _ _ => "SETWORD"
  | .loadbe _ _ _ => "LOADBE"
  | .storebe _ _ _ => "STOREBE"
  | .getlimb _ _ => "GETLIMB"
  | .bufwr _ _ => "BUFWR"
  | .bufrd _ => "BUFRD"
  | .add _ _ _ => "ADD"
  | .sub _ _ _ => "SUB"
  | .mul _ _ _ => "MUL"
  | .sqr _ _ => "SQR"
  | .sqrn _ _ _ => "SQRN"
  | .fred _ _ => "FRED"
  | .reds _ _ _ => "REDS"
  | .redl _ _ _ => "REDL"
  | .inv _ _ => "INV"
  | .split _ _ _ _ => "SPLIT"
  | .join _ _ _ => "JOIN"

/-- The fields of a command (the column "Fields" of rule R79); unused fields are zero (R76). -/
def fieldsOf : Instr → Fields
  | .nop => { opcode := 0x00 }
  | .derive bits word => { opcode := 0x01, imm32 := bits, imm64 := word }
  | .clrerr => { opcode := 0x02 }
  | .rdcsr csr => { opcode := 0x03, imm32 := csr }
  | .copy rd rs1 => { opcode := 0x10, rd := rd, rs1 := rs1 }
  | .setword rd value => { opcode := 0x11, rd := rd, imm64 := value }
  | .loadbe rd len addr => { opcode := 0x12, rd := rd, imm32 := len, imm64 := addr }
  | .storebe rs1 outLen addr => { opcode := 0x13, rs1 := rs1, imm32 := outLen, imm64 := addr }
  | .getlimb rs1 index => { opcode := 0x14, rs1 := rs1, imm32 := index }
  | .bufwr byte addr => { opcode := 0x18, imm32 := byte, imm64 := addr }
  | .bufrd addr => { opcode := 0x19, imm64 := addr }
  | .add rd rs1 rs2 => { opcode := 0x20, rd := rd, rs1 := rs1, rs2 := rs2 }
  | .sub rd rs1 rs2 => { opcode := 0x21, rd := rd, rs1 := rs1, rs2 := rs2 }
  | .mul rd rs1 rs2 => { opcode := 0x22, rd := rd, rs1 := rs1, rs2 := rs2 }
  | .sqr rd rs1 => { opcode := 0x23, rd := rd, rs1 := rs1 }
  | .sqrn rd rs1 k => { opcode := 0x24, rd := rd, rs1 := rs1, imm32 := k }
  | .fred rd rs1 => { opcode := 0x25, rd := rd, rs1 := rs1 }
  | .reds rd rs1 ovf => { opcode := 0x28, rd := rd, rs1 := rs1, imm64 := ovf }
  | .redl rd rs1 rs2 => { opcode := 0x29, rd := rd, rs1 := rs1, rs2 := rs2 }
  | .inv rd rs1 => { opcode := 0x30, rd := rd, rs1 := rs1 }
  | .split rd rs1 rs2 parts => { opcode := 0x40, rd := rd, rs1 := rs1, rs2 := rs2, imm32 := parts }
  | .join rd rs1 parts => { opcode := 0x41, rd := rd, rs1 := rs1, imm32 := parts }

/-- The encoder: the command word of an instruction (rules R71, R79). -/
def encode (i : Instr) : Cmd := cmdOfFields (fieldsOf i)

/-- A row of the opcode table: a word `w` selects the row when `w AND mask = match` (30_encoding.md). -/
structure OpcodeRow where
  mnemonic : String
  pattern : Cmd
  mask : Cmd
deriving DecidableEq, Repr

/-- The table file of 30_encoding.md, row by row: "a word that selects no row is exactly a word that fails with `IllegalCommand`". -/
def opcodeRows : List OpcodeRow :=
  [ ⟨"NOP", 0x00000000000000000000000000000000, 0xFFFFFFFFFFFFFFFFFFFFFFFFFFFFFFFF⟩,
    ⟨"DERIVE", 0x01000000000000000000000000000000, 0xFFFFFFFF000000000000000000000000⟩,
    ⟨"CLRERR", 0x02000000000000000000000000000000, 0xFFFFFFFFFFFFFFFFFFFFFFFFFFFFFFFF⟩,
    ⟨"RDCSR", 0x03000000000000000000000000000000, 0xFFFFFFFF00000000FFFFFFFFFFFFFFFF⟩,
    ⟨"COPY", 0x10000000000000000000000000000000, 0xFF0000FFFFFFFFFFFFFFFFFFFFFFFFFF⟩,
    ⟨"SETWORD", 0x11000000000000000000000000000000, 0xFF00FFFFFFFFFFFF0000000000000000⟩,
    ⟨"LOADBE", 0x12000000000000000000000000000000, 0xFF00FFFF000000000000000000000000⟩,
    ⟨"STOREBE", 0x13000000000000000000000000000000, 0xFFFF00FF000000000000000000000000⟩,
    ⟨"GETLIMB", 0x14000000000000000000000000000000, 0xFFFF00FF00000000FFFFFFFFFFFFFFFF⟩,
    ⟨"BUFWR", 0x18000000000000000000000000000000, 0xFFFFFFFFFFFFFF000000000000000000⟩,
    ⟨"BUFRD", 0x19000000000000000000000000000000, 0xFFFFFFFFFFFFFFFF0000000000000000⟩ ] ++
  [ ⟨"ADD", 0x20000000000000000000000000000000, 0xFF000000FFFFFFFFFFFFFFFFFFFFFFFF⟩,
    ⟨"SUB", 0x21000000000000000000000000000000, 0xFF000000FFFFFFFFFFFFFFFFFFFFFFFF⟩,
    ⟨"MUL", 0x22000000000000000000000000000000, 0xFF000000FFFFFFFFFFFFFFFFFFFFFFFF⟩,
    ⟨"SQR", 0x23000000000000000000000000000000, 0xFF0000FFFFFFFFFFFFFFFFFFFFFFFFFF⟩,
    ⟨"SQRN", 0x24000000000000000000000000000000, 0xFF0000FF00000000FFFFFFFFFFFFFFFF⟩,
    ⟨"FRED", 0x25000000000000000000000000000000, 0xFF0000FFFFFFFFFFFFFFFFFFFFFFFFFF⟩,
    ⟨"REDS", 0x28000000000000000000000000000000, 0xFF0000FFFFFFFFFF0000000000000000⟩,
    ⟨"REDL", 0x29000000000000000000000000000000, 0xFF000000FFFFFFFFFFFFFFFFFFFFFFFF⟩,
    ⟨"INV", 0x30000000000000000000000000000000, 0xFF0000FFFFFFFFFFFFFFFFFFFFFFFFFF⟩,
    ⟨"SPLIT", 0x40000000000000000000000000000000, 0xFF00000000000000FFFFFFFFFFFFFFFF⟩,
    ⟨"JOIN", 0x41000000000000000000000000000000, 0xFF0000FF00000000FFFFFFFFFFFFFFFF⟩ ]

/-- The mask and match test of the opcode table. -/
def selectsRow (w : Cmd) (r : OpcodeRow) : Bool := w &&& r.mask == r.pattern

/-- The command word of a table instruction whose bits are `w`, of which the table gives `nbits`: the bits above are 0.
A command is presented whole as one 128-bit number (R54, R70), so there is no byte order to apply (notes/assumptions/14.md). -/
def tableCmd (nbits w : Nat) : Cmd := BitVec.ofNat 128 (w % 2 ^ nbits)

/-- The instruction the decoder reads from a table instruction's bits, none where it refuses. -/
def decodeTableWord (nbits w : Nat) : Option Instr :=
  match decode (tableCmd nbits w) with
  | .ok i => some i
  | .error _ => none

end Sys2Proof
end

