-- ==== Sys2Proof/Machine/Bits.lean ====
section
/-! DEFINITION. The arithmetic notation of rules R8 and R9 and the byte order of rule R52, on exact naturals. -/

namespace Sys2Proof.Machine

/-- `ceil(a/b)`, the least integer not below `a/b` (rule R8), for `b > 0`. -/
def ceilDiv (a b : Nat) : Nat := (a + b - 1) / b

/-- `bitLength(v)`: 0 for 0, and for `v > 0` the `k` with `2^(k-1) ≤ v < 2^k` (rule R8). -/
def bitLength (v : Nat) : Nat := if v = 0 then 0 else Nat.log2 v + 1

/-- `limb(v, i) = v[64i+63 : 64i]` (rule R9). -/
def limb (v i : Nat) : Limb := BitVec.ofNat 64 (v / 2 ^ (64 * i))

/-- The limbs `limb(v, 0) .. limb(v, count - 1)`, least significant first (rule R26). -/
def limbs (v count : Nat) : List Limb := (List.range count).map (limb v)

/-- Byte `j` of the big-endian encoding of `v` in `k` bytes: `v[8(k-1-j)+7 : 8(k-1-j)]` (rule R53). -/
def beByte (v k j : Nat) : Byte := BitVec.ofNat 8 (v / 2 ^ (8 * (k - 1 - j)))

/-- The big-endian encoding of `v` in `k` bytes, the byte at the lowest address first (rules R52, R53, R124). -/
def beBytes (v k : Nat) : List Byte := (List.range k).map (beByte v k)

/-- The natural a big-endian byte string spells, `Σ b[j] · 256^(k-1-j)` (rule R52), by Horner's scheme. -/
def beValue (bytes : List Byte) : Nat := bytes.foldl (fun acc b => 256 * acc + b.toNat) 0

end Sys2Proof.Machine
end

