-- ==== Sys2Proof/Machine/Ops.lean ====
section
/-! DEFINITION. The named operations over memory and registers (rules R26, R27, R50), what an error does to the state
(rules R280, R284: the engine's "trap entry") and what clears its record (rules R111, R285), reset as an event (R310),
and the taking of the next event from the command port (R20). -/

namespace Sys2Proof.Machine

/-! Memory (20_memory.md). -/

/-- `BUF[a]`: the listed byte, else what an unlisted address reads as. -/
def Memory.read : Memory → Nat → Byte
  | [], _ => bufFill
  | c :: m, a => if c.1 = a then c.2 else Memory.read m a

/-- The memory without a cell for the address `a`. -/
def Memory.erase (m : Memory) (a : Nat) : Memory := m.filter (fun c => c.1 != a)

/-- Put a cell at its place in the rising order of addresses. -/
def Memory.place : Memory → Nat → Byte → Memory
  | [], a, b => [(a, b)]
  | c :: m, a, b => if a < c.1 then (a, b) :: c :: m else c :: Memory.place m a b

/-- `BUF[a] <- b`, keeping the canonical form: writing what an unlisted address reads as removes the cell. -/
def Memory.write (m : Memory) (a : Nat) (b : Byte) : Memory :=
  if b = bufFill then m.erase a else (m.erase a).place a b

/-- `MemRead(addr, n)`, first byte first (rule R50). -/
def Memory.readBytes (m : Memory) (addr n : Nat) : List Byte := (List.range n).map (fun k => m.read (addr + k))

/-- `MemWrite(addr, n, bytes)` with `n` the length of the list (rule R50). -/
def Memory.writeBytes (m : Memory) (addr : Nat) : List Byte → Memory
  | [] => m
  | b :: bs => Memory.writeBytes (m.write addr b) (addr + 1) bs

/-- The canonical form of a memory: addresses strictly rising, and no cell holds what an unlisted address reads as. -/
abbrev Memory.wf (m : Memory) : Prop := m.Pairwise (fun c d => c.1 < d.1) ∧ ∀ c ∈ m, c.2 ≠ bufFill

/-! Element registers (10_state.md section 3). -/

/-- The content of `E[i]`, `none` when `V[i] = 0` or there is no such register (rules R26, R27). -/
def State.elem (s : State) (i : Nat) : Option Nat := s.e.getD i none

/-- `E[i] <- v` and `V[i] <- 1` (rules R10, R27). -/
def State.setElem (s : State) (i v : Nat) : State := { s with e := s.e.set i (some v) }

/-- Install a shape: the whole shape block, `SHAPE_VALID <- 1`, and every `V[i] <- 0` (rules R101, R314). -/
def State.install (s : State) (sh : Shape) : State :=
  { s with shape := some sh, e := List.replicate s.cfg.nreg none }

/-- `MemWrite` on `BUF` (rule R50). -/
def State.storeBytes (s : State) (addr : Nat) (bytes : List Byte) : State :=
  { s with buf := s.buf.writeBytes addr bytes }

/-! Responses and errors (60_exceptions.md). -/

/-- The code of an error kind (rule R281). -/
def errorCode : ErrorKind → Byte
  | .invalidShape => 1
  | .lengthExceeded => 2
  | .bufferTooSmall => 3
  | .allocationFailure => 4
  | .illegalCommand => 5
  | .noShape => 6
  | .badRegister => 7
  | .uninit => 8
  | .badParts => 9
  | .bufferRange => 10
  | .badIndex => 11
  | .subUnderflow => 12
  | .resultOverflow => 13
  | .encodeOverflow => 14

/-- The 72-bit response word: `code` in bits 71:64, `data` in bits 63:0 (rule R81). -/
def Response.word (r : Response) : RespWord := r.code ++ r.data

/-- What the response port has carried so far, as 72-bit words, the latest first (rules R36, R81). -/
def State.responseWords (s : State) : List RespWord := s.responses.map Response.word

/-- Emit the response `(OK, data)` of a command that completes (rule R36). -/
def State.respond (s : State) (data : Limb) : State := { s with responses := ⟨0, data⟩ :: s.responses }

/-- An error of kind `k` in a command whose opcode byte is `op`: the response `(code(k), 0)`, and `ERR`, `ERROP` take
`code(k)` and `op` if `ERR = 0`; nothing else changes (rules R33, R280, R284). -/
def State.fail (s : State) (op : Byte) (k : ErrorKind) : State :=
  { s with
    err := if s.err = 0 then errorCode k else s.err
    errop := if s.err = 0 then op else s.errop
    responses := ⟨errorCode k, 0⟩ :: s.responses }

/-- `ERR <- 0`, `ERROP <- 0` (rule R111). There is no return from an error beside it, "because nothing was entered"
(rule R285). -/
def State.clearErr (s : State) : State := { s with err := 0, errop := 0 }

/-- How every command ends (rule R280): it completes with its effect and its response, or it fails and changes nothing
but the error record. Never a fault or a refusal of the model. -/
def commit (i : Instr) (s : State) (r : Except ErrorKind (State × Limb)) : Host.Outcome State Fault Refusal :=
  match r with
  | .ok (t, data) => .next (t.respond data)
  | .error k => .next (s.fail (opcodeOf i) k)

/-- An illegal command word: `IllegalCommand`, with the opcode byte of the word, "also for an opcode that is not
defined" (rules R75, R76, R77, R280). -/
def illegalCommand (w : Cmd) (s : State) : State := s.fail (opcodeByte w) .illegalCommand

/-! Events on the command port. -/

/-- The state with the first event of the port taken. -/
def State.takeEvent (s : State) : State := { s with port := s.port.tail }

/-- The reset event (rule R310): the state of rule R39, with the content of `BUF` the event carries; the parameters are
not state, the rest of the port is the host's, and the responses already emitted are the host's
record (DESIGN CHOICE, notes/assumptions/6.md). -/
def resetEvent (content : List Byte) (s : State) : State :=
  { State.afterReset s.cfg (Memory.writeBytes [] 0 (content.take s.cfg.bufsize)) s.port with
    responses := s.responses }

end Sys2Proof.Machine
end

