-- ==== Sys2Proof/Machine/Operands.lean ====
section
/-! DEFINITION. The operand forms (rules R72, R73) and the checks every command makes on them, in the order of rule
R283: shape in force, register indices and runs, valid bits, ranges of `BUF`. A check that fails names its error kind. -/

namespace Sys2Proof.Machine

/-- Pass when the condition holds, else raise the kind `k`. -/
def require (ok : Bool) (k : ErrorKind) : Except ErrorKind Unit := if ok then .ok () else .error k

/-- The shape in force, or `NoShape` (rules R22, R282). -/
def State.needShape (s : State) : Except ErrorKind Shape :=
  match s.shape with
  | some sh => .ok sh
  | none => .error .noShape

/-- Every register field the command uses is below `NREG`, else `BadRegister` (rules R73, R282). -/
def State.checkRegs (s : State) (rs : List Reg) : Except ErrorKind Unit :=
  require (rs.all (fun r => decide (r.toNat < s.cfg.nreg))) .badRegister

/-- A run of `count` registers from `base` lies inside `0 .. NREG-1`, without wrap-around, else `BadRegister`
(rules R73, R250, R255). -/
def State.checkRun (s : State) (base count : Nat) : Except ErrorKind Unit :=
  require (decide (base + count ≤ s.cfg.nreg)) .badRegister

/-- Read `E[i]`, or `Uninit` when `V[i] = 0` (rules R10, R27). -/
def State.readElem (s : State) (i : Nat) : Except ErrorKind Nat :=
  match s.elem i with
  | some v => .ok v
  | none => .error .uninit

/-- Read the run `E[base], ..., E[base+count-1]` (rule R250). -/
def State.readRun (s : State) (base : Nat) : Nat → Except ErrorKind (List Nat)
  | 0 => .ok []
  | n + 1 => do
    let v ← s.readElem base
    let vs ← State.readRun s (base + 1) n
    pure (v :: vs)

/-- Read the share list `x_i = E[base+2i]`, `y_i = E[base+2i+1]`, `i = 0 .. count-1` (rule R255). -/
def State.readShares (s : State) (base : Nat) : Nat → Except ErrorKind (List (Nat × Nat))
  | 0 => .ok []
  | n + 1 => do
    let x ← s.readElem base
    let y ← s.readElem (base + 1)
    let rest ← State.readShares s (base + 2) n
    pure ((x, y) :: rest)

/-- `addr + len ≤ BUFSIZE` as naturals, else `BufferRange` (rules R50, R282). -/
def State.checkRange (s : State) (addr len : Nat) : Except ErrorKind Unit :=
  require (decide (addr + len ≤ s.cfg.bufsize)) .bufferRange

/-- The commands `E[d] <- f(E[a])`: shape, registers, valid bit, then the function of the family's rule; the source is
read before the destination is written (rules R180, R283, R313). -/
def unaryElem (rd rs1 : Reg) (s : State) (f : Shape → Nat → Except ErrorKind Nat) : Except ErrorKind (State × Limb) := do
  let sh ← s.needShape
  s.checkRegs [rd, rs1]
  let x ← s.readElem rs1.toNat
  let r ← f sh x
  pure (s.setElem rd.toNat r, 0)

/-- The commands `E[d] <- f(E[a], E[b])` (rules R180, R283, R313). -/
def binaryElem (rd rs1 rs2 : Reg) (s : State) (f : Shape → Nat → Nat → Except ErrorKind Nat) :
    Except ErrorKind (State × Limb) := do
  let sh ← s.needShape
  s.checkRegs [rd, rs1, rs2]
  let x ← s.readElem rs1.toNat
  let y ← s.readElem rs2.toNat
  let r ← f sh x y
  pure (s.setElem rd.toNat r, 0)

end Sys2Proof.Machine
end

