-- ==== Sys2Proof/Machine/Control.lean ====
section
/-! DEFINITION. FieldShape and control commands (40_shape.md): the derivation of the shape block, the CSR map
(rules R31 to R34), and the meanings of `NOP`, `DERIVE`, `CLRERR`, `RDCSR`. -/

namespace Sys2Proof.Machine

/-! The shape block (rules R101 to R107). -/

/-- The loop of rule R107: the factors of the count `k`, worked down to 1, in the order they are found. The first
argument bounds the number of rounds; `k` itself is enough, since every round lowers the count. -/
def chainDown : Nat → Nat → List Factor
  | 0, _ => []
  | fuel + 1, k =>
    if k ≤ 1 then []
    else if k % 5 = 0 then .five :: chainDown fuel (k / 5)
    else if k % 3 = 0 then .three :: chainDown fuel (k / 3)
    else if k % 2 = 0 then .two :: chainDown fuel (k / 2)
    else .one :: chainDown fuel (k - 1)

/-- The chain schedule of a run length `m`, in application order (rule R107); empty when `m ≤ 1`. -/
def chainOf (m : Nat) : List Factor := (chainDown m m).reverse

/-- The shape block for an accepted pair (rules R102 to R107). -/
def shapeOf (bits : Imm32) (word : Imm64) : Shape :=
  let n := bits.toNat + 1
  let ls := bitLength (word.toNat + 1)
  let m := n - ls
  { bits := bits
    word := word
    modbits := n
    limbcount := ceilDiv n 64
    bytecount := ceilDiv n 8
    topshift := n % 64
    topmask := 2 ^ (n % 64) - 1
    shiftcomp := 64 - n % 64
    ls := ls
    wlow := 2 ^ ls - (word.toNat + 2)
    m := m
    invOk := decide (ls + 1 ≤ n)
    topw1 := decide (n % 64 = 1)
    chainlen := (chainOf m).length
    p := limbs (2 ^ n - word.toNat) (ceilDiv n 64)
    chain := chainOf m }

/-- SHARE's `derive(bits, word)` (rule R101). The three conditions give the same kind, "so their order is not
observable"; the limb count is tested before `2^n` is formed (notes/assumptions/9.md). -/
def derive (cfg : Config) (bits : Imm32) (word : Imm64) : Except ErrorKind Shape :=
  if word.toNat % 2 = 0 then .error .invalidShape
  else if cfg.lmax < ceilDiv (bits.toNat + 1) 64 then .error .invalidShape
  else if 2 ^ (bits.toNat + 1) ≤ word.toNat then .error .invalidShape
  else .ok (shapeOf bits word)

/-! The CSR map (rules R31 to R34). -/

/-- The control and status registers of rule R31. -/
inductive Csr where
  | status | err | errop | lmax | nreg | bufsize | partsMax
  | bits | word | modbits | limbcount | bytecount | topshift | topmask | shiftcomp | ls | wlow | m | chainlen
  | p (i : Nat) | chain (i : Nat)
deriving DecidableEq, Repr

/-- The register a CSR number names, none where no such CSR exists (rules R31, R34). -/
def csrOfNumber (k : Nat) : Option Csr :=
  match k with
  | 0x00 => some .status
  | 0x01 => some .err
  | 0x02 => some .errop
  | 0x08 => some .lmax
  | 0x09 => some .nreg
  | 0x0A => some .bufsize
  | 0x0B => some .partsMax
  | 0x10 => some .bits
  | 0x11 => some .word
  | 0x12 => some .modbits
  | 0x13 => some .limbcount
  | 0x14 => some .bytecount
  | 0x15 => some .topshift
  | 0x16 => some .topmask
  | 0x17 => some .shiftcomp
  | 0x18 => some .ls
  | 0x19 => some .wlow
  | 0x1A => some .m
  | 0x1B => some .chainlen
  | _ =>
    if 0x20 ≤ k ∧ k < 0x40 then some (.p (k - 0x20))
    else if 0x40 ≤ k ∧ k < 0x60 then some (.chain (k - 0x40))
    else none

/-- The number a chain entry is shown as (rules R31, R107). -/
def factorNumber : Factor → Nat
  | .one => 1
  | .two => 2
  | .three => 3
  | .five => 5

/-- The value of a shape CSR, zero-extended to 64 bits; array entries beyond the length read 0 (rules R31, R108). -/
def shapeCsr (sh : Shape) : Csr → Limb
  | .bits => sh.bits.zeroExtend 64
  | .word => sh.word
  | .modbits => BitVec.ofNat 64 sh.modbits
  | .limbcount => BitVec.ofNat 64 sh.limbcount
  | .bytecount => BitVec.ofNat 64 sh.bytecount
  | .topshift => BitVec.ofNat 64 sh.topshift
  | .topmask => BitVec.ofNat 64 sh.topmask
  | .shiftcomp => BitVec.ofNat 64 sh.shiftcomp
  | .ls => BitVec.ofNat 64 sh.ls
  | .wlow => BitVec.ofNat 64 sh.wlow
  | .m => BitVec.ofNat 64 sh.m
  | .chainlen => BitVec.ofNat 64 sh.chainlen
  | .p i => sh.p.getD i 0
  | .chain i => BitVec.ofNat 64 ((sh.chain.map factorNumber).getD i 0)
  | .status => 0
  | .err => 0
  | .errop => 0
  | .lmax => 0
  | .nreg => 0
  | .bufsize => 0
  | .partsMax => 0

/-- The value `RDCSR` returns, or its error: the CSRs numbered below 0x10 always read; the others need a shape
(rules R31, R108). -/
def readCsr (s : State) (c : Csr) : Except ErrorKind Limb :=
  match c with
  | .status => .ok s.status
  | .err => .ok (s.err.zeroExtend 64)
  | .errop => .ok (s.errop.zeroExtend 64)
  | .lmax => .ok (BitVec.ofNat 64 s.cfg.lmax)
  | .nreg => .ok (BitVec.ofNat 64 s.cfg.nreg)
  | .bufsize => .ok (BitVec.ofNat 64 s.cfg.bufsize)
  | .partsMax => .ok (BitVec.ofNat 64 s.cfg.partsMax)
  | c => do
    let sh ← s.needShape
    pure (shapeCsr sh c)

/-! The meanings. -/

/-- `NOP` (rule R109): no state changes. -/
def execNop (s : State) : Host.Outcome State Fault Refusal := commit .nop s (.ok (s, 0))

/-- `DERIVE bits, word` (rule R101). -/
def execDerive (bits : Imm32) (word : Imm64) (s : State) : Host.Outcome State Fault Refusal :=
  commit (.derive bits word) s do
    let sh ← derive s.cfg bits word
    pure (s.install sh, 0)

/-- `CLRERR` (rule R111). -/
def execClrerr (s : State) : Host.Outcome State Fault Refusal := commit .clrerr s (.ok (s.clearErr, 0))

/-- `RDCSR csr` (rule R108): an unknown number is `BadIndex` whether or not a shape is in force. -/
def execRdcsr (csr : Imm32) (s : State) : Host.Outcome State Fault Refusal :=
  commit (.rdcsr csr) s
    (match csrOfNumber csr.toNat with
    | none => .error .badIndex
    | some c => do
      let v ← readCsr s c
      pure (s, v))

end Sys2Proof.Machine
end

