-- ==== Sys2Proof/Machine/Element.lean ====
section
/-! DEFINITION. FieldElement movement (41_element.md): `COPY`, `SETWORD`, `LOADBE`, `STOREBE`, `GETLIMB`, `BUFWR`,
`BUFRD`. None of them does arithmetic (rule R120). -/

namespace Sys2Proof.Machine

/-- `COPY Ed, Ea` (rule R121): bit-exact, not reduced. -/
def execCopy (rd rs1 : Reg) (s : State) : Host.Outcome State Fault Refusal :=
  commit (.copy rd rs1) s (unaryElem rd rs1 s (fun _ x => .ok x))

/-- `SETWORD Ed, value` (rule R122): limb 0 is `value`, every other limb zero, as a natural; not reduced. -/
def execSetword (rd : Reg) (value : Imm64) (s : State) : Host.Outcome State Fault Refusal :=
  commit (.setword rd value) s do
    let _ ← s.needShape
    s.checkRegs [rd]
    pure (s.setElem rd.toNat value.toNat, 0)

/-- `LOADBE Ed, addr, len` (rule R123): big-endian, zero-padded on the most significant side, not reduced. -/
def execLoadbe (rd : Reg) (len : Imm32) (addr : Imm64) (s : State) : Host.Outcome State Fault Refusal :=
  commit (.loadbe rd len addr) s do
    let sh ← s.needShape
    s.checkRegs [rd]
    require (decide (len.toNat ≤ sh.bytecount)) .lengthExceeded
    s.checkRange addr.toNat len.toNat
    pure (s.setElem rd.toNat (beValue (s.buf.readBytes addr.toNat len.toNat)), 0)

/-- `STOREBE Ea, addr, outLen` (rule R124): exactly `outLen` bytes, never truncated. -/
def execStorebe (rs1 : Reg) (outLen : Imm32) (addr : Imm64) (s : State) : Host.Outcome State Fault Refusal :=
  commit (.storebe rs1 outLen addr) s do
    let sh ← s.needShape
    s.checkRegs [rs1]
    let v ← s.readElem rs1.toNat
    require (decide (sh.bytecount ≤ outLen.toNat)) .bufferTooSmall
    s.checkRange addr.toNat outLen.toNat
    require (decide (v < 2 ^ (8 * outLen.toNat))) .encodeOverflow
    pure (s.storeBytes addr.toNat (beBytes v outLen.toNat), 0)

/-- `GETLIMB Ea, i` (rule R125). -/
def execGetlimb (rs1 : Reg) (index : Imm32) (s : State) : Host.Outcome State Fault Refusal :=
  commit (.getlimb rs1 index) s do
    let sh ← s.needShape
    s.checkRegs [rs1]
    let v ← s.readElem rs1.toNat
    require (decide (index.toNat < sh.limbcount)) .badIndex
    pure (s, limb v index.toNat)

/-- `BUFWR addr, byte` (rule R126). A `byte` with bits 31:8 set is not the operand of any legal word (rule R77): the
decoder refuses the word, and the meaning answers the same `IllegalCommand` (DEDUCED, notes/assumptions/8.md). -/
def execBufwr (byte : Imm32) (addr : Imm64) (s : State) : Host.Outcome State Fault Refusal :=
  commit (.bufwr byte addr) s do
    require (decide (byte.toNat < 256)) .illegalCommand
    require (decide (addr.toNat < s.cfg.bufsize)) .bufferRange
    pure (s.storeBytes addr.toNat [byte.truncate 8], 0)

/-- `BUFRD addr` (rule R127): the byte zero-extended to 64 bits. -/
def execBufrd (addr : Imm64) (s : State) : Host.Outcome State Fault Refusal :=
  commit (.bufrd addr) s do
    require (decide (addr.toNat < s.cfg.bufsize)) .bufferRange
    pure (s, (s.buf.read addr.toNat).zeroExtend 64)

end Sys2Proof.Machine
end

