-- ==== Sys2Proof/Machine/Reducer.lean ====
section
/-! DEFINITION. The reducer (42_reducer.md): `fold`, `reduceSmall`, `reduceLong` on exact naturals, and the meanings of
`REDS` and `REDL`. -/

namespace Sys2Proof.Machine

/-- `W = 64·L`, the width in bits of an element register (rule R23). -/
def Shape.width (sh : Shape) : Nat := 64 * sh.limbcount

/-- `T = 2^n` (rule R12). -/
def Shape.top (sh : Shape) : Nat := 2 ^ sh.modbits

/-- `p = 2^n - word` (rule R103), from the inputs and not from the limb table (DEDUCED, notes/assumptions/10.md). -/
def Shape.prime (sh : Shape) : Nat := sh.top - sh.word.toNat

/-- `fold(v) = (v mod T) + (v div T)·c` (rule R151). -/
def Shape.fold (sh : Shape) (v : Nat) : Nat := v % sh.top + v / sh.top * sh.word.toNat

/-- `reduceSmall(v)` (rule R153): one pass, the carry-out fold when the result does not fit the register, and
`ResultOverflow` when it still does not. -/
def Shape.reduceSmall (sh : Shape) (v : Nat) : Except ErrorKind Nat :=
  if sh.fold v < 2 ^ sh.width then .ok (sh.fold v)
  else if sh.fold (sh.fold v) < 2 ^ sh.width then .ok (sh.fold (sh.fold v))
  else .error .resultOverflow

/-- `reduceLong(v) = reduceSmall(fold(fold(v)))` (rule R154). -/
def Shape.reduceLong (sh : Shape) (v : Nat) : Except ErrorKind Nat := sh.reduceSmall (sh.fold (sh.fold v))

/-- `REDS Ed, Ea, ovf` (rule R158): the `(L+1)`-limb value with `ovf` as its top limb. -/
def execReds (rd rs1 : Reg) (ovf : Imm64) (s : State) : Host.Outcome State Fault Refusal :=
  commit (.reds rd rs1 ovf) s
    (unaryElem rd rs1 s (fun sh x => sh.reduceSmall (x + 2 ^ sh.width * ovf.toNat)))

/-- `REDL Ed, Ea, Eb` (rule R159): the `2L`-limb value with low half `E[a]` and high half `E[b]`. -/
def execRedl (rd rs1 rs2 : Reg) (s : State) : Host.Outcome State Fault Refusal :=
  commit (.redl rd rs1 rs2) s
    (binaryElem rd rs1 rs2 s (fun sh x y => sh.reduceLong (x + 2 ^ sh.width * y)))

end Sys2Proof.Machine
end

