-- ==== Sys2Proof/Machine/FieldOps.lean ====
section
/-! DEFINITION. Field operations (43_fieldops.md): the functions on values (rules R181 to R186) and the meanings of
`ADD`, `SUB`, `MUL`, `SQR`, `SQRN`, `FRED`. -/

namespace Sys2Proof.Machine

/-- `add(x, y) = reduceSmall(x + y)` (rule R181). -/
def Shape.add (sh : Shape) (x y : Nat) : Except ErrorKind Nat := sh.reduceSmall (x + y)

/-- `sub(x, y) = reduceSmall(x + p - y)`, or `SubUnderflow` when `y > x + p` (rule R182). -/
def Shape.sub (sh : Shape) (x y : Nat) : Except ErrorKind Nat :=
  if x + sh.prime < y then .error .subUnderflow else sh.reduceSmall (x + sh.prime - y)

/-- `mul(x, y) = reduceLong(x·y)` (rule R183). -/
def Shape.mul (sh : Shape) (x y : Nat) : Except ErrorKind Nat := sh.reduceLong (x * y)

/-- `sqr(x) = reduceLong(x²)` (rule R184). -/
def Shape.sqr (sh : Shape) (x : Nat) : Except ErrorKind Nat := sh.reduceLong (x * x)

/-- `sqrN(x, k)`: `sqr` applied `k` times (rule R185). -/
def Shape.sqrN (sh : Shape) (x : Nat) : Nat → Except ErrorKind Nat
  | 0 => .ok x
  | k + 1 => do
    let t ← sh.sqr x
    Shape.sqrN sh t k

/-- `finalReduce(x)`: one conditional subtraction of `p` (rule R186). -/
def Shape.fred (sh : Shape) (x : Nat) : Nat := if sh.prime ≤ x then x - sh.prime else x

/-- `ADD Ed, Ea, Eb` (rule R181). -/
def execAdd (rd rs1 rs2 : Reg) (s : State) : Host.Outcome State Fault Refusal :=
  commit (.add rd rs1 rs2) s (binaryElem rd rs1 rs2 s Shape.add)

/-- `SUB Ed, Ea, Eb` (rule R182). -/
def execSub (rd rs1 rs2 : Reg) (s : State) : Host.Outcome State Fault Refusal :=
  commit (.sub rd rs1 rs2) s (binaryElem rd rs1 rs2 s Shape.sub)

/-- `MUL Ed, Ea, Eb` (rule R183). -/
def execMul (rd rs1 rs2 : Reg) (s : State) : Host.Outcome State Fault Refusal :=
  commit (.mul rd rs1 rs2) s (binaryElem rd rs1 rs2 s Shape.mul)

/-- `SQR Ed, Ea` (rule R184). -/
def execSqr (rd rs1 : Reg) (s : State) : Host.Outcome State Fault Refusal :=
  commit (.sqr rd rs1) s (unaryElem rd rs1 s Shape.sqr)

/-- `SQRN Ed, Ea, k` (rule R185): `k = 0` copies. -/
def execSqrn (rd rs1 : Reg) (k : Imm32) (s : State) : Host.Outcome State Fault Refusal :=
  commit (.sqrn rd rs1 k) s (unaryElem rd rs1 s (fun sh x => sh.sqrN x k.toNat))

/-- `FRED Ed, Ea` (rule R186): it cannot overflow. -/
def execFred (rd rs1 : Reg) (s : State) : Host.Outcome State Fault Refusal :=
  commit (.fred rd rs1) s (unaryElem rd rs1 s (fun sh x => .ok (sh.fred x)))

end Sys2Proof.Machine
end

