-- ==== Sys2Proof/Machine/Inverter.lean ====
section
/-! DEFINITION. The inverter (44_inverter.md): `a^(p-2)` in three steps over the cached constants `LS`, `WLOW`, `M` and
`CHAIN`, and the meaning of `INV`. -/

namespace Sys2Proof.Machine

/-- The loop of step 1 (rule R222): the bits `i = count-1 .. 0` of `w`, from the top down, on the running value `aw`. -/
def Shape.powLoop (sh : Shape) (a w : Nat) : Nat → Nat → Except ErrorKind Nat
  | 0, aw => .ok aw
  | i + 1, aw => do
    let t ← sh.sqr aw
    let t ← if w.testBit i then sh.mul t a else pure t
    Shape.powLoop sh a w i t

/-- Step 1 (rule R222): `a^w`; the top set bit of `w` is accounted for by starting at `a`. -/
def Shape.invStep1 (sh : Shape) (a : Nat) : Except ErrorKind Nat :=
  sh.powLoop a sh.wlow (bitLength sh.wlow - 1) a

/-- One entry of the chain on the accumulator, with exponent tracker `h` (rule R223). -/
def Shape.chainEntry (sh : Shape) (a : Nat) (f : Factor) (acc h : Nat) : Except ErrorKind Nat :=
  match f with
  | .one => do
    let q ← sh.sqr acc
    sh.mul q a
  | .two => do
    let q ← sh.sqrN acc h
    sh.mul q acc
  | .three => do
    let q ← sh.sqrN acc h
    let r ← sh.mul q acc
    let q ← sh.sqrN r h
    sh.mul q acc
  | .five => do
    let q ← sh.sqrN acc h
    let u ← sh.mul q acc
    let q ← sh.sqrN u (2 * h)
    let r ← sh.mul q u
    let q ← sh.sqrN r h
    sh.mul q acc

/-- The exponent tracker after an entry (rule R223). -/
def trackerAfter (f : Factor) (h : Nat) : Nat :=
  match f with
  | .one => h + 1
  | .two => 2 * h
  | .three => 3 * h
  | .five => 5 * h

/-- The loop of step 2 (rule R223): the entries of the schedule in order. -/
def Shape.chainLoop (sh : Shape) (a : Nat) : List Factor → Nat → Nat → Except ErrorKind Nat
  | [], acc, _ => .ok acc
  | f :: fs, acc, h => do
    let acc ← sh.chainEntry a f acc h
    Shape.chainLoop sh a fs acc (trackerAfter f h)

/-- Step 2 (rule R223): `a^(2^m - 1)`. -/
def Shape.invStep2 (sh : Shape) (a : Nat) : Except ErrorKind Nat := sh.chainLoop a sh.chain a 1

/-- `inv(a)`: steps 1, 2 and 3 (rules R222 to R224). -/
def Shape.inv (sh : Shape) (a : Nat) : Except ErrorKind Nat := do
  let aw ← sh.invStep1 a
  let acc ← sh.invStep2 a
  let q ← sh.sqrN acc sh.ls
  sh.mul q aw

/-- `INV Ed, Ea` (rule R225): `InvalidShape` when `INV_OK = 0`, before the register checks (R283). -/
def execInv (rd rs1 : Reg) (s : State) : Host.Outcome State Fault Refusal :=
  commit (.inv rd rs1) s do
    let sh ← s.needShape
    require sh.invOk .invalidShape
    unaryElem rd rs1 s Shape.inv

end Sys2Proof.Machine
end

