-- ==== Sys2Proof/Machine/Sharing.lean ====
section
/-! DEFINITION. Secret sharing (45_sharing.md): polynomial evaluation and Lagrange interpolation at zero as the fixed
sequences of rules R251 and R256, and the meanings of `SPLIT` and `JOIN`. -/

namespace Sys2Proof.Machine

/-- The loop of rule R251 over the coefficients after the first: `xp <- mul(xp, x)`, `y <- add(y, mul(co[i], xp))`. -/
def Shape.splitLoop (sh : Shape) (x : Nat) : List Nat → Nat → Nat → Except ErrorKind Nat
  | [], _, y => .ok y
  | c :: cs, xp, y => do
    let xp ← sh.mul xp x
    let t ← sh.mul c xp
    let y ← sh.add y t
    Shape.splitLoop sh x cs xp y

/-- `split` with first coefficient `c0` and the others `cs`, at the point `x` (rule R251). -/
def Shape.split (sh : Shape) (c0 : Nat) (cs : List Nat) (x : Nat) : Except ErrorKind Nat := do
  let y ← sh.splitLoop x cs 1 c0
  pure (sh.fred y)

/-- A product left to right with the running value as first operand (rule R256); `JOIN` never forms an empty one. -/
def Shape.product (sh : Shape) : List Nat → Except ErrorKind Nat
  | [] => .ok 1
  | v :: vs => vs.foldlM sh.mul v

/-- A sum left to right with the running value as first operand (rule R256); `JOIN` never forms an empty one. -/
def Shape.sum (sh : Shape) : List Nat → Except ErrorKind Nat
  | [] => .ok 0
  | v :: vs => vs.foldlM sh.add v

/-- `den[i] = x_i · Π_{j≠i} (x_j - x_i)`, `j` ascending (rule R256). -/
def Shape.denominator (sh : Shape) (xs : List Nat) (i xi : Nat) : Except ErrorKind Nat :=
  (xs.eraseIdx i).foldlM (fun den xj => do
    let d ← sh.sub xj xi
    sh.mul den d) xi

/-- The pairs `(den[i], num[i])` with `num[i] = np · y_i`, from index `i` on (rule R256). -/
def Shape.fractions (sh : Shape) (xs : List Nat) (np : Nat) : Nat → List (Nat × Nat) →
    Except ErrorKind (List (Nat × Nat))
  | _, [] => .ok []
  | i, (x, y) :: rest => do
    let den ← sh.denominator xs i x
    let num ← sh.mul np y
    let more ← Shape.fractions sh xs np (i + 1) rest
    pure ((den, num) :: more)

/-- `t[i] = num[i] · Π_{j≠i} den[j]`, `j` ascending, from index `i` on (rule R256). -/
def Shape.commonTerms (sh : Shape) (dens : List Nat) : Nat → List Nat → Except ErrorKind (List Nat)
  | _, [] => .ok []
  | i, num :: rest => do
    let t ← (dens.eraseIdx i).foldlM sh.mul num
    let more ← Shape.commonTerms sh dens (i + 1) rest
    pure (t :: more)

/-- `join` of a share list (rule R256), with exactly one inversion (rule R259). -/
def Shape.join (sh : Shape) (shares : List (Nat × Nat)) : Except ErrorKind Nat := do
  let xs := shares.map Prod.fst
  let np ← sh.product xs
  let fracs ← sh.fractions xs np 0 shares
  let dens := fracs.map Prod.fst
  let d ← sh.product dens
  let ts ← sh.commonTerms dens 0 (fracs.map Prod.snd)
  let sum ← sh.sum ts
  let dinv ← sh.inv d
  let r ← sh.mul sum dinv
  pure (sh.fred r)

/-- `SPLIT Ed, Ea, Eb, parts` (rule R251): all sources are read before `E[d]` is written. -/
def execSplit (rd rs1 rs2 : Reg) (parts : Imm32) (s : State) : Host.Outcome State Fault Refusal :=
  commit (.split rd rs1 rs2 parts) s do
    let sh ← s.needShape
    require (decide (2 ≤ parts.toNat)) .badParts
    s.checkRegs [rd, rs2]
    s.checkRun rs1.toNat parts.toNat
    let c0 ← s.readElem rs1.toNat
    let cs ← s.readRun (rs1.toNat + 1) (parts.toNat - 1)
    let x ← s.readElem rs2.toNat
    let y ← sh.split c0 cs x
    pure (s.setElem rd.toNat y, 0)

/-- `JOIN Ed, Ea, parts` (rule R256). -/
def execJoin (rd rs1 : Reg) (parts : Imm32) (s : State) : Host.Outcome State Fault Refusal :=
  commit (.join rd rs1 parts) s do
    let sh ← s.needShape
    require sh.invOk .invalidShape
    require (decide (2 ≤ parts.toNat)) .badParts
    s.checkRegs [rd]
    s.checkRun rs1.toNat (2 * parts.toNat)
    require (decide (parts.toNat ≤ s.cfg.partsMax)) .allocationFailure
    let shares ← s.readShares rs1.toNat parts.toNat
    let v ← sh.join shares
    pure (s.setElem rd.toNat v, 0)

end Sys2Proof.Machine
end

