-- ==== Sys2Proof/Machine/Dispatch.lean ====
section
/-! DEFINITION. One arm per command (rule R74). -/

namespace Sys2Proof.Machine

def exec (i : Instr) (s : State) : Host.Outcome State Fault Refusal :=
  match i with
  | .nop => Sys2Proof.Machine.execNop s
  | .derive bits word => Sys2Proof.Machine.execDerive bits word s
  | .clrerr => Sys2Proof.Machine.execClrerr s
  | .rdcsr csr => Sys2Proof.Machine.execRdcsr csr s
  | .copy rd rs1 => Sys2Proof.Machine.execCopy rd rs1 s
  | .setword rd value => Sys2Proof.Machine.execSetword rd value s
  | .loadbe rd len addr => Sys2Proof.Machine.execLoadbe rd len addr s
  | .storebe rs1 outLen addr => Sys2Proof.Machine.execStorebe rs1 outLen addr s
  | .getlimb rs1 index => Sys2Proof.Machine.execGetlimb rs1 index s
  | .bufwr byte addr => Sys2Proof.Machine.execBufwr byte addr s
  | .bufrd addr => Sys2Proof.Machine.execBufrd addr s
  | .add rd rs1 rs2 => Sys2Proof.Machine.execAdd rd rs1 rs2 s
  | .sub rd rs1 rs2 => Sys2Proof.Machine.execSub rd rs1 rs2 s
  | .mul rd rs1 rs2 => Sys2Proof.Machine.execMul rd rs1 rs2 s
  | .sqr rd rs1 => Sys2Proof.Machine.execSqr rd rs1 s
  | .sqrn rd rs1 k => Sys2Proof.Machine.execSqrn rd rs1 k s
  | .fred rd rs1 => Sys2Proof.Machine.execFred rd rs1 s
  | .reds rd rs1 ovf => Sys2Proof.Machine.execReds rd rs1 ovf s
  | .redl rd rs1 rs2 => Sys2Proof.Machine.execRedl rd rs1 rs2 s
  | .inv rd rs1 => Sys2Proof.Machine.execInv rd rs1 s
  | .split rd rs1 rs2 parts => Sys2Proof.Machine.execSplit rd rs1 rs2 parts s
  | .join rd rs1 parts => Sys2Proof.Machine.execJoin rd rs1 parts s

end Sys2Proof.Machine
end

