-- ==== Sys2Proof/Machine/Step.lean ====
section
/-! DEFINITION. One step: the engine takes one event from its port and carries it out completely (rules R20, R286,
R310, R312). -/

namespace Sys2Proof.Machine

/-- One step. A command word is decoded and executed; an illegal one fails with `IllegalCommand` (R75 to R77); a reset
gives the reset state (R310). With nothing presented the engine waits: there is no halted state (R312; DEDUCED, notes/assumptions/5.md). -/
def step (s : State) : Host.Outcome State Fault Refusal :=
  match s.port with
  | [] => .next s
  | .reset content :: _ => .next (resetEvent content s.takeEvent)
  | .command w :: _ =>
    match decode w with
    | .ok i => exec i s.takeEvent
    | .error _ => .next (illegalCommand w s.takeEvent)

/-- The state in which a table instruction's word is the next command on the port. -/
def State.withFetchWord (s : State) (nbits w : Nat) : State :=
  { s with port := .command (tableCmd nbits w) :: s.port }

end Sys2Proof.Machine
end

