-- ==== Sys2Proof/Safety.lean ====
section
/-! DEFINITION. The vocabulary of claims: the invariant of the state, and the derived notions of rule R12, which the
engine never checks. -/

namespace Sys2Proof.Machine

/-- The shape block holds what `DERIVE` of its own two inputs computes (rules R22, R23, R101). -/
abbrev Shape.Derived (cfg : Config) (sh : Shape) : Prop := derive cfg sh.bits sh.word = .ok sh

/-- A shape is regular when `(c + 2)·c ≤ T` (rule R12). -/
abbrev Shape.Regular (sh : Shape) : Prop := (sh.word.toNat + 2) * sh.word.toNat ≤ sh.top

/-- A value is canonical when `v < p` (rule R12). -/
abbrev Shape.Canonical (sh : Shape) (v : Nat) : Prop := v < sh.prime

/-- A value is weakly reduced when `v < min(T + c, 2^W)` (rule R12). -/
abbrev Shape.WeaklyReduced (sh : Shape) (v : Nat) : Prop := v < min (sh.top + sh.word.toNat) (2 ^ sh.width)

/-- Every register that holds a value holds a natural below `2^W` of the shape in force; without a shape no register
holds one (rules R26, R27, R39). -/
abbrev State.ElemsOk (s : State) : Prop :=
  s.e.length = s.cfg.nreg ∧
    match s.shape with
    | none => ∀ c ∈ s.e, c = none
    | some sh => ∀ c ∈ s.e, ∀ v, c = some v → v < 2 ^ sh.width

/-- `BUF` is in canonical form and lists no address at or above `BUFSIZE` (rules R35, R50). -/
abbrev State.BufOk (s : State) : Prop := s.buf.wf ∧ ∀ c ∈ s.buf, c.1 < s.cfg.bufsize

/-- `ERR` is 0 or a code the engine produces, and `ERROP` is 0 while `ERR` is (rules R33, R281). -/
abbrev State.RecordOk (s : State) : Prop := s.err.toNat ≤ 14 ∧ (s.err = 0 → s.errop = 0)

/-- What every state of a run satisfies: parameters in their ranges (R6), the shape block derived from its inputs
(R22 to R25), registers in their width (R26), `BUF` in its address space (R50), a legal error record (R33). -/
structure State.Inv (s : State) : Prop where
  cfg : s.cfg.Ok
  shape : ∀ sh, s.shape = some sh → sh.Derived s.cfg
  elems : s.ElemsOk
  buf : s.BufOk
  record : s.RecordOk

end Sys2Proof.Machine
end

