-- ==== Sys2Proof/Certificates/Slice0/Obligations.lean ====
section
/-! DEFINITION. The statements for the provers. A statement about a next state gives that state in full, as an update of
the state before, so that it is the frame as well: what the update does not name is unchanged. Three fields of the state are
the model's own choice and no rule's: `cfg` (notes/assumptions/2.md), `port` (3.md) and `responses` (4.md); what a statement
says of them rests on those entries. -/

namespace Sys2Proof.Claim

open Sys2Proof.Machine

/-- The outcome of a machine step. -/
abbrev Out := Host.Outcome State Fault Refusal

/-- The command completes with the response `(OK, data)` and changes nothing else. -/
def answered (s : State) (data : Limb) : Out := .next { s with responses := ⟨0, data⟩ :: s.responses }

/-- The command completes: element register `d` holds `v` with its valid bit set, the response is `(OK, 0)`, and nothing
else changes. -/
def wrote (s : State) (d : Reg) (v : Nat) : Out :=
  .next { s with e := s.e.set d.toNat (some v), responses := ⟨0, 0⟩ :: s.responses }

/-- The command with opcode byte `op` fails with the error code `code` (rule R280): the response is `(code, 0)`, the error
record takes `code` and `op` if it was clear, and nothing else changes. -/
def failed (s : State) (op code : Byte) : Out :=
  .next { s with
    err := if s.err = 0 then code else s.err
    errop := if s.err = 0 then op else s.errop
    responses := ⟨code, 0⟩ :: s.responses }

/-- The command just executed answered `OK`. -/
def Ok (t : State) : Prop := ∃ data rest, t.responses = ⟨0, data⟩ :: rest

/-- A shape is in force, and every register field named is below `NREG`. -/
def Ready (s : State) (sh : Shape) (rs : List Reg) : Prop := s.shape = some sh ∧ ∀ r ∈ rs, r.toNat < s.cfg.nreg

end Sys2Proof.Claim

open Sys2Proof Sys2Proof.Machine Sys2Proof.Claim

/-! ## Encoding (30_encoding.md) -/

/-- Rules R71, R72, R74, R76, R77: the decoder reads back every legal command from its word, with every operand. -/
def Obligations.DecodeOfEncode : Prop := ∀ i : Instr, wellFormed i = true → decode (encode i) = .ok i

/-- Rule R70 (fixed length, no second spelling): a word the decoder accepts is the encoding of what it reads, and that is a
legal command. -/
def Obligations.EncodeOfDecode : Prop := ∀ (w : Cmd) (i : Instr), decode w = .ok i → encode i = w ∧ wellFormed i = true

/-- The opening of 30_encoding.md: a word selects a row of the opcode table exactly when it decodes to that row's command,
and a word that selects no row is exactly a word the decoder refuses. -/
def Obligations.DecodeAgreesWithOpcodeTable : Prop :=
  (∀ (w : Cmd), ∀ r ∈ opcodeRows,
    selectsRow w r = true ↔ ∃ i, decode w = .ok i ∧ mnemonicOf i = r.mnemonic) ∧
  (∀ w : Cmd, (∃ e, decode w = .error e) ↔ ∀ r ∈ opcodeRows, selectsRow w r = false)

/-- Words written out in section 3.1 of 95_test_vectors.md, one per family, and three illegal ones. -/
def Obligations.SampleWordsDecode : Prop :=
  decode 0x01000000000000800000000000000019 = .ok (.derive 128 25) ∧
  decode 0x12070000000000110000000000000100 = .ok (.loadbe 7 17 0x100) ∧
  decode 0x18000000000000FF0000000000000FFF = .ok (.bufwr 255 4095) ∧
  decode 0x220A0B0C000000000000000000000000 = .ok (.mul 10 11 12) ∧
  decode 0x28020100000000000000000000000001 = .ok (.reds 2 1 1) ∧
  decode 0x30020100000000000000000000000000 = .ok (.inv 2 1) ∧
  decode 0x40050004000000020000000000000000 = .ok (.split 5 0 4 2) ∧
  decode 0x04000000000000000000000000000000 = .error (.reservedOpcode 0x04) ∧
  decode 0x23020101000000000000000000000000 = .error (.unusedField 0x23) ∧
  decode 0x18000000000001000000000000000000 = .error (.byteTooWide 0x18)

/-- Rules R75, R76 (and R77, R280): a command word whose opcode byte, bits 127:120, is that of no row of the opcode table, or
that has the opcode of a row and a must-be-zero bit set, fails with `IllegalCommand` (code 5) and its own opcode byte,
whatever the state: nothing but `ERR`, `ERROP` and the response changes. -/
def Obligations.IllegalWordsFail : Prop :=
  ∀ (s : State) (w : Cmd) (rest : List HostEvent), s.port = .command w :: rest →
    ((∀ r ∈ opcodeRows, w.extractLsb' 120 8 ≠ r.pattern.extractLsb' 120 8) →
      step s = failed { s with port := rest } (w.extractLsb' 120 8) 5) ∧
    ((∃ r ∈ opcodeRows, w.extractLsb' 120 8 = r.pattern.extractLsb' 120 8 ∧ w &&& r.mask ≠ r.pattern) →
      step s = failed { s with port := rest } (w.extractLsb' 120 8) 5)

/-! ## The machine (10_state.md, 60_exceptions.md, 70_reset_and_hazards.md) -/

/-- Rules R20, R54, R59: when the next word on the command port decodes to a legal command, one step takes that word from the
port and executes the command, and nothing else. (That the port is a list in the state is the model's choice, log entry 3.) -/
def Obligations.StepRunsDecodedCommand : Prop :=
  ∀ (s : State) (w : Cmd) (rest : List HostEvent) (i : Instr), s.port = .command w :: rest → decode w = .ok i →
    wellFormed i = true → step s = exec i { s with port := rest }

/-- Rules R39, R310: a reset event leaves no shape, no valid register, a clear error record, and in `BUF` the new content it
carries, in canonical form; the parameters stay (R20). That the event carries the content, and that the events still to
come and the responses already given stay, is the model's choice (log entries 3, 4 and 6). -/
def Obligations.ResetEventGivesResetState : Prop :=
  ∀ (s : State) (content : List Byte) (rest : List HostEvent), s.port = .reset content :: rest →
    ∃ m : Memory, step s = .next
        { cfg := s.cfg, shape := none, e := List.replicate s.cfg.nreg none, err := 0, errop := 0, buf := m, port := rest,
          responses := s.responses } ∧
      (∀ a b, a < s.cfg.bufsize → content[a]? = some b → m.read a = b) ∧ m.wf ∧ (∀ c ∈ m, c.1 < s.cfg.bufsize)

/-- Rules R6, R39: every state right after reset, whatever its parameters and the content of `BUF`, holds no shape and no
register, and `STATUS`, `ERR` and `ERROP` are 0; with parameters in their ranges and `BUF` in its address space it satisfies
the invariant. `State.reset` is one of these states. (Its parameters and the content of its `BUF` are the model's choice, log
entries 1 and 2; the other clauses hold for all of them.) -/
def Obligations.ResetSatisfiesInvariant : Prop :=
  (∀ (cfg : Config) (buf : Memory) (port : List HostEvent),
    ((State.afterReset cfg buf port).shape = none ∧ (∀ i, (State.afterReset cfg buf port).elem i = none) ∧
      (State.afterReset cfg buf port).status = 0 ∧ (State.afterReset cfg buf port).err = 0 ∧
      (State.afterReset cfg buf port).errop = 0) ∧
    (cfg.Ok → buf.wf → (∀ c ∈ buf, c.1 < cfg.bufsize) → (State.afterReset cfg buf port).Inv)) ∧
  State.reset.Inv ∧ State.reset.status = 0 ∧ State.reset.err = 0 ∧ State.reset.errop = 0

/-- Rules R6, R22 to R27, R33, R50: every step keeps the invariant, from every state that meets it: parameters in range, the
shape block derived from its own inputs, registers below `2^W`, `BUF` in its address space, a legal error record. -/
def Obligations.StepKeepsInvariant : Prop := ∀ s t : State, s.Inv → step s = .next t → t.Inv

/-- Rules R285, R286, R312: no state stops the engine; every step, and every command, has a next state. (With an empty port
the step waits: the model's reading, log entry 5.) -/
def Obligations.StepAlwaysHasNextState : Prop :=
  (∀ s : State, ∃ t, step s = .next t) ∧ (∀ (i : Instr) (s : State), ∃ t, exec i s = .next t)

/-- Rules R20, R36, R81: every command emits exactly one response, one word of 72 bits with the code in bits 71:64 and the
data in bits 63:0; the data of a failure is 0, and so is the data of every command but `RDCSR`, `GETLIMB` and `BUFRD`. -/
def Obligations.CommandEmitsOneResponse : Prop :=
  ∀ (i : Instr) (s t : State), exec i s = .next t → ∃ r : Response, t.responses = r :: s.responses ∧
    (∃ w : BitVec 72, t.responseWords = w :: s.responseWords ∧ w.extractLsb' 64 8 = r.code ∧ w.extractLsb' 0 64 = r.data) ∧
    (r.code ≠ 0 → r.data = 0) ∧
    ((∀ c, i ≠ .rdcsr c) → (∀ a k, i ≠ .getlimb a k) → (∀ a, i ≠ .bufrd a) → r.data = 0)

/-- Rules R33, R280, R284: a command that answers an error code changes nothing but the error record, which takes the code and
the command's opcode byte if it was clear; the code is one of 1 to 14. -/
def Obligations.FailureChangesOnlyErrorRecord : Prop :=
  ∀ (i : Instr) (s t : State) (r : Response), exec i s = .next t → t.responses = r :: s.responses → r.code ≠ 0 →
    r.code.toNat ≤ 14 ∧ exec i s = failed s ((encode i).extractLsb' 120 8) r.code

/-- Rules R31, R51, R100, R120: only `DERIVE` changes the shape block; only `STOREBE` and `BUFWR` change `BUF`; a register
other than the command's `rd` changes only by `DERIVE`, and `rd` changes only by being written; the error record of a
state with `ERR ≠ 0` changes only by `CLRERR`; the parameters and the events still to come never change. -/
def Obligations.OnlyNamedCommandsWriteEachPart : Prop :=
  ∀ (i : Instr) (s t : State), exec i s = .next t →
    (t.shape ≠ s.shape → ∃ b w, i = .derive b w) ∧
    (t.buf ≠ s.buf → (∃ a l q, i = .storebe a l q) ∨ ∃ b q, i = .bufwr b q) ∧
    (∀ j, t.elem j ≠ s.elem j →
      (∃ b w, i = .derive b w) ∨ (j = (fieldsOf i).rd.toNat ∧ ∃ v, t.elem j = some v)) ∧
    (s.err ≠ 0 → i ≠ .clrerr → t.err = s.err ∧ t.errop = s.errop) ∧
    t.cfg = s.cfg ∧ t.port = s.port

/-! ## Shape and control commands (40_shape.md) -/

/-- Rules R109, R111: `NOP` changes no state and `CLRERR` clears `ERR` and `ERROP` and nothing else, both in every state
and both with the response `(OK, 0)`; each has one legal word, and any other word with its opcode byte is `IllegalCommand`
(5); no command but `CLRERR` clears the record. -/
def Obligations.NopDoesNothingAndClrerrClearsRecord : Prop :=
  (∀ s : State, exec .nop s = answered s 0) ∧
  (∀ s : State, exec .clrerr s = .next { s with err := 0, errop := 0, responses := ⟨0, 0⟩ :: s.responses }) ∧
  (∀ w : Cmd, (decode w = .ok .nop ↔ w = 0) ∧ (decode w = .ok .clrerr ↔ w = 0x02000000000000000000000000000000)) ∧
  (∀ (s : State) (w : Cmd) (rest : List HostEvent), s.port = .command w :: rest →
    (w.extractLsb' 120 8 = 0x00 ∧ w ≠ 0 ∨ w.extractLsb' 120 8 = 0x02 ∧ w ≠ 0x02000000000000000000000000000000) →
    step s = failed { s with port := rest } (w.extractLsb' 120 8) 5) ∧
  (∀ (i : Instr) (s t : State), exec i s = .next t → s.err ≠ 0 → t.err = 0 → i = .clrerr)

/-- Rules R102, R103, R314 (and R101, R282): for an odd `word < 2^(bits+1)` and at most `LMAX` limbs, `DERIVE` installs
the shape block with the size constants and the limb table of the prime, clears every valid bit, and leaves `BUF`, `ERR`,
`ERROP`; for every other pair it fails with `InvalidShape` (1) and invalidates nothing. -/
def Obligations.DeriveInstallsShapeOrFails : Prop :=
  ∀ (s : State) (bits : Imm32) (word : Imm64) (n : Nat), n = bits.toNat + 1 →
    (word.toNat % 2 = 1 → word.toNat < 2 ^ n → n ≤ 64 * s.cfg.lmax →
      ∃ sh : Shape, exec (.derive bits word) s = .next
          { s with shape := some sh, e := List.replicate s.cfg.nreg none, responses := ⟨0, 0⟩ :: s.responses } ∧
        sh.bits = bits ∧ sh.word = word ∧ sh.modbits = n ∧
        (64 * (sh.limbcount - 1) < n ∧ n ≤ 64 * sh.limbcount) ∧ (8 * (sh.bytecount - 1) < n ∧ n ≤ 8 * sh.bytecount) ∧
        sh.topshift = n % 64 ∧ sh.topmask = 2 ^ sh.topshift - 1 ∧ sh.shiftcomp = 64 - sh.topshift ∧
        (sh.topw1 = true ↔ sh.topshift = 1) ∧ sh.p.length = sh.limbcount ∧
        ∑ i ∈ Finset.range sh.limbcount, (sh.p.getD i 0).toNat * 2 ^ (64 * i) = 2 ^ n - word.toNat ∧
        (sh.topshift ≠ 0 → (sh.p.getD (sh.limbcount - 1) 0).toNat ≤ sh.topmask)) ∧
    (word.toNat % 2 = 0 ∨ 2 ^ n ≤ word.toNat ∨ 64 * s.cfg.lmax < n →
      exec (.derive bits word) s = failed s 0x01 1)

/-- Rules R104, R105: `LS` is the bit length of `word + 1`, `WLOW` is `2^ls - (word + 2)` and, by the spec's own inference
in R104, below `2^ls`; and, when `n ≥ ls`, the exponent identity `p - 2 = (2^(n-ls) - 1)·2^ls + w`. -/
def Obligations.ExponentConstants : Prop :=
  ∀ (cfg : Config) (bits : Imm32) (word : Imm64) (sh : Shape), derive cfg bits word = .ok sh →
    (2 ^ (sh.ls - 1) ≤ word.toNat + 1 ∧ word.toNat + 1 < 2 ^ sh.ls) ∧
    sh.wlow + (word.toNat + 2) = 2 ^ sh.ls ∧ sh.wlow < 2 ^ sh.ls ∧
    (sh.ls ≤ sh.modbits →
      sh.prime - 2 = (2 ^ (sh.modbits - sh.ls) - 1) * 2 ^ sh.ls + sh.wlow)

/-- Rule R106: `M` is `n - ls` when that is at least 1 and 0 otherwise, `INV_OK` is 1 exactly when it is at least 1, and, by
the spec's own inference there, every regular shape with `n ≥ 3` has an inverter. -/
def Obligations.RunLengthAndInvOk : Prop :=
  ∀ (cfg : Config) (bits : Imm32) (word : Imm64) (sh : Shape), derive cfg bits word = .ok sh →
    (sh.invOk = true ↔ sh.ls + 1 ≤ sh.modbits) ∧ (sh.invOk = true → sh.m + sh.ls = sh.modbits ∧ 1 ≤ sh.m) ∧
    (sh.invOk = false → sh.m = 0 ∧ sh.chain = []) ∧ (sh.Regular → 3 ≤ sh.modbits → sh.invOk = true)

/-- Rule R107, with the spec's own inferences in rules R107 and R7: the chain of an accepted shape is the schedule of its `m`,
and `CHAINLEN` is its length. The schedule applied from `CHAIN[0]` takes the tracker from 1 to `m`; its last entry, the
first the loop finds, is the largest of 5, 3, 2 that divides `m`, else a unit step, and the rest is the schedule of what
remains; and for `m ≤ 2048` it has at most 22 entries. -/
def Obligations.ChainScheduleReachesRunLength : Prop :=
  (∀ (cfg : Config) (bits : Imm32) (word : Imm64) (sh : Shape), derive cfg bits word = .ok sh →
    sh.chain = chainOf sh.m ∧ sh.chainlen = (chainOf sh.m).length ∧
    (sh.invOk = true → sh.chain.foldl (fun h f => trackerAfter f h) 1 = sh.modbits - sh.ls)) ∧
  (∀ m, 1 ≤ m → (chainOf m).foldl (fun h f => trackerAfter f h) 1 = m) ∧
  (∀ m, m ≤ 1 → chainOf m = []) ∧
  (∀ m, 1 < m → chainOf m =
    if m % 5 = 0 then chainOf (m / 5) ++ [Factor.five]
    else if m % 3 = 0 then chainOf (m / 3) ++ [Factor.three]
    else if m % 2 = 0 then chainOf (m / 2) ++ [Factor.two]
    else chainOf (m - 1) ++ [Factor.one]) ∧
  (∀ m, 1 ≤ m → (chainOf m).length ≤ 2 * Nat.log 2 m) ∧ (∀ m, m ≤ 2048 → (chainOf m).length ≤ 22)

/-- Rule R31, column "Bits used": with the parameters in range, every value of an accepted shape fits its CSR; with the
ranges of `LS` and `WLOW` that R104 infers, and the bound of rule R7 on the chain. -/
def Obligations.ShapeValuesFitTheirCsrs : Prop :=
  ∀ (cfg : Config) (bits : Imm32) (word : Imm64) (sh : Shape), cfg.Ok → derive cfg bits word = .ok sh →
    sh.modbits < 2 ^ 12 ∧ sh.limbcount < 2 ^ 6 ∧ sh.bytecount < 2 ^ 9 ∧ sh.topshift < 2 ^ 6 ∧ sh.topmask < 2 ^ 63 ∧
    sh.shiftcomp < 2 ^ 7 ∧ (2 ≤ sh.ls ∧ sh.ls ≤ 65) ∧ (1 ≤ sh.wlow ∧ sh.wlow < 2 ^ 64) ∧ sh.m < 2 ^ 12 ∧ sh.chainlen < 2 ^ 6 ∧
    sh.chainlen = sh.chain.length ∧ sh.p.length ≤ 32 ∧ sh.chain.length ≤ 32

/-- Rules R31, R32, R108: `RDCSR` of every number of the CSR table answers `OK` with the value named there, zero-extended, and
changes no state. The CSRs below 0x10 read always; the others with a shape in force (one that `DERIVE` installed). -/
def Obligations.RdcsrReturnsCsrValue : Prop :=
  ∀ s : State,
    (exec (.rdcsr 0x01) s = answered s (s.err.zeroExtend 64) ∧ exec (.rdcsr 0x02) s = answered s (s.errop.zeroExtend 64) ∧
      exec (.rdcsr 0x08) s = answered s (BitVec.ofNat 64 s.cfg.lmax) ∧
      exec (.rdcsr 0x09) s = answered s (BitVec.ofNat 64 s.cfg.nreg) ∧
      exec (.rdcsr 0x0A) s = answered s (BitVec.ofNat 64 s.cfg.bufsize) ∧
      exec (.rdcsr 0x0B) s = answered s (BitVec.ofNat 64 s.cfg.partsMax)) ∧
    (s.shape = none → exec (.rdcsr 0x00) s = answered s 0) ∧
    (∀ sh, s.shape = some sh → sh.Derived s.cfg →
      exec (.rdcsr 0x00) s = answered s (BitVec.ofNat 64
        (1 + (if sh.topshift = 1 then 2 else 0) + (if sh.ls + 1 ≤ sh.modbits then 4 else 0))) ∧
      exec (.rdcsr 0x10) s = answered s (sh.bits.zeroExtend 64) ∧ exec (.rdcsr 0x11) s = answered s sh.word ∧
      exec (.rdcsr 0x12) s = answered s (BitVec.ofNat 64 sh.modbits) ∧
      exec (.rdcsr 0x13) s = answered s (BitVec.ofNat 64 sh.limbcount) ∧
      exec (.rdcsr 0x14) s = answered s (BitVec.ofNat 64 sh.bytecount) ∧
      exec (.rdcsr 0x15) s = answered s (BitVec.ofNat 64 sh.topshift) ∧
      exec (.rdcsr 0x16) s = answered s (BitVec.ofNat 64 sh.topmask) ∧
      exec (.rdcsr 0x17) s = answered s (BitVec.ofNat 64 sh.shiftcomp) ∧
      exec (.rdcsr 0x18) s = answered s (BitVec.ofNat 64 sh.ls) ∧
      exec (.rdcsr 0x19) s = answered s (BitVec.ofNat 64 sh.wlow) ∧
      exec (.rdcsr 0x1A) s = answered s (BitVec.ofNat 64 sh.m) ∧
      exec (.rdcsr 0x1B) s = answered s (BitVec.ofNat 64 sh.chainlen) ∧
      ∀ i < 32,
        exec (.rdcsr (BitVec.ofNat 32 (0x20 + i))) s =
          answered s (BitVec.ofNat 64 (if i < sh.limbcount then sh.prime / 2 ^ (64 * i) else 0)) ∧
        exec (.rdcsr (BitVec.ofNat 32 (0x40 + i))) s =
          answered s (BitVec.ofNat 64 (if i < sh.chainlen then (sh.chain.map factorNumber).getD i 0 else 0)))

/-- Rules R34, R108, R283: `RDCSR` of a number outside the CSR table fails with `BadIndex` (code 11) whether or not a
shape is in force; of an existing number at or above 0x10 it fails with `NoShape` (code 6) when none is. -/
def Obligations.RdcsrErrors : Prop :=
  ∀ (s : State) (k : Imm32),
    ((3 ≤ k.toNat ∧ k.toNat ≤ 7 ∨ 0x0C ≤ k.toNat ∧ k.toNat ≤ 0x0F ∨ 0x1C ≤ k.toNat ∧ k.toNat ≤ 0x1F ∨ 0x60 ≤ k.toNat) →
      exec (.rdcsr k) s = failed s 0x03 11) ∧
    (s.shape = none → (0x10 ≤ k.toNat ∧ k.toNat ≤ 0x1B ∨ 0x20 ≤ k.toNat ∧ k.toNat ≤ 0x5F) →
      exec (.rdcsr k) s = failed s 0x03 6)

/-! ## Element movement (41_element.md) -/

/-- Rule R121: `COPY` writes the source's value as it is, for any source and destination. -/
def Obligations.CopyWritesSource : Prop :=
  ∀ (s : State) (sh : Shape) (d a : Reg) (x : Nat), Ready s sh [d, a] → s.elem a.toNat = some x →
    exec (.copy d a) s = wrote s d x

/-- Rule R122: `SETWORD` writes the 64-bit value as a natural, not reduced. -/
def Obligations.SetwordWritesValue : Prop :=
  ∀ (s : State) (sh : Shape) (d : Reg) (value : Imm64), Ready s sh [d] →
    exec (.setword d value) s = wrote s d value.toNat

/-- Rules R52, R123: `LOADBE` writes the natural the bytes spell, `b[0]` the most significant, for every length from 0 to
`BYTECOUNT` that stays inside `BUF`. -/
def Obligations.LoadbeWritesBigEndianValue : Prop :=
  ∀ (s : State) (sh : Shape) (d : Reg) (len : Imm32) (addr : Imm64), Ready s sh [d] → len.toNat ≤ sh.bytecount →
    addr.toNat + len.toNat ≤ s.cfg.bufsize →
    exec (.loadbe d len addr) s = wrote s d
      (∑ j ∈ Finset.range len.toNat, (s.buf.read (addr.toNat + j)).toNat * 256 ^ (len.toNat - 1 - j))

/-- Rules R123, R283: the errors of `LOADBE` in their order: `BadRegister` (7), `LengthExceeded` (2), `BufferRange` (10). -/
def Obligations.LoadbeErrors : Prop :=
  ∀ (s : State) (sh : Shape) (d : Reg) (len : Imm32) (addr : Imm64), s.shape = some sh →
    (s.cfg.nreg ≤ d.toNat → exec (.loadbe d len addr) s = failed s 0x12 7) ∧
    (d.toNat < s.cfg.nreg → sh.bytecount < len.toNat → exec (.loadbe d len addr) s = failed s 0x12 2) ∧
    (d.toNat < s.cfg.nreg → len.toNat ≤ sh.bytecount → s.cfg.bufsize < addr.toNat + len.toNat →
      exec (.loadbe d len addr) s = failed s 0x12 10)

/-- Rules R53, R124: `STOREBE` stores exactly `outLen` bytes at `addr`, byte `j` being `v[8(outLen-1-j)+7 :
8(outLen-1-j)]`; every other byte of `BUF`, and everything else, is unchanged. -/
def Obligations.StorebeStoresBigEndianBytes : Prop :=
  ∀ (s : State) (sh : Shape) (a : Reg) (outLen : Imm32) (addr : Imm64) (v : Nat), Ready s sh [a] →
    s.elem a.toNat = some v → sh.bytecount ≤ outLen.toNat → addr.toNat + outLen.toNat ≤ s.cfg.bufsize →
    v < 2 ^ (8 * outLen.toNat) →
    ∃ m : Memory, exec (.storebe a outLen addr) s = .next { s with buf := m, responses := ⟨0, 0⟩ :: s.responses } ∧
      ∀ q, m.read q =
        if addr.toNat ≤ q ∧ q < addr.toNat + outLen.toNat then
          BitVec.ofNat 8 (v / 2 ^ (8 * (outLen.toNat - 1 - (q - addr.toNat))))
        else s.buf.read q

/-- Rules R124, R283: the errors of `STOREBE` in their order: `BadRegister` (7), `Uninit` (8), `BufferTooSmall` (3),
`BufferRange` (10), `EncodeOverflow` (14). -/
def Obligations.StorebeErrors : Prop :=
  ∀ (s : State) (sh : Shape) (a : Reg) (outLen : Imm32) (addr : Imm64), s.shape = some sh →
    (s.cfg.nreg ≤ a.toNat → exec (.storebe a outLen addr) s = failed s 0x13 7) ∧
    (a.toNat < s.cfg.nreg →
      (s.elem a.toNat = none → exec (.storebe a outLen addr) s = failed s 0x13 8) ∧
      ∀ v, s.elem a.toNat = some v →
        (outLen.toNat < sh.bytecount → exec (.storebe a outLen addr) s = failed s 0x13 3) ∧
        (sh.bytecount ≤ outLen.toNat →
          (s.cfg.bufsize < addr.toNat + outLen.toNat → exec (.storebe a outLen addr) s = failed s 0x13 10) ∧
          (addr.toNat + outLen.toNat ≤ s.cfg.bufsize → 2 ^ (8 * outLen.toNat) ≤ v →
            exec (.storebe a outLen addr) s = failed s 0x13 14)))

/-- The spec's own inference R128: a value below `2^(8·BYTECOUNT)` stored with `outLen = BYTECOUNT` and loaded again from
the same address into any register is that value again; both commands complete. -/
def Obligations.ByteRoundTrip : Prop :=
  ∀ (s : State) (sh : Shape) (a d : Reg) (len : Imm32) (addr : Imm64) (x : Nat), s.Inv → Ready s sh [a, d] →
    s.elem a.toNat = some x → x < 2 ^ (8 * sh.bytecount) → len.toNat = sh.bytecount →
    addr.toNat + len.toNat ≤ s.cfg.bufsize →
    ∃ t u, exec (.storebe a len addr) s = .next t ∧ exec (.loadbe d len addr) t = .next u ∧
      Ok t ∧ Ok u ∧ u.elem d.toNat = some x

/-- Rules R53, R125: `GETLIMB` returns limb `i` of the register and changes no state. -/
def Obligations.GetlimbReturnsLimb : Prop :=
  ∀ (s : State) (sh : Shape) (a : Reg) (i : Imm32) (v : Nat), Ready s sh [a] → s.elem a.toNat = some v →
    i.toNat < sh.limbcount → exec (.getlimb a i) s = answered s (BitVec.ofNat 64 (v / 2 ^ (64 * i.toNat)))

/-- Rule R126: `BUFWR` stores one byte; every other byte of `BUF`, and everything else, is unchanged. Needs no shape. -/
def Obligations.BufwrStoresOneByte : Prop :=
  ∀ (s : State) (byte : Imm32) (addr : Imm64), byte.toNat < 256 → addr.toNat < s.cfg.bufsize →
    ∃ m : Memory, exec (.bufwr byte addr) s = .next { s with buf := m, responses := ⟨0, 0⟩ :: s.responses } ∧
      ∀ q, (m.read q).toNat = if q = addr.toNat then byte.toNat else (s.buf.read q).toNat

/-- Rule R127: `BUFRD` returns the byte at `addr`, zero-extended, and changes no state. Needs no shape. -/
def Obligations.BufrdReturnsByte : Prop :=
  ∀ (s : State) (addr : Imm64), addr.toNat < s.cfg.bufsize →
    exec (.bufrd addr) s = answered s ((s.buf.read addr.toNat).zeroExtend 64)

/-- Rules R50, R125, R126, R127, R282: `BUFWR` (of a legal byte) and `BUFRD` at or beyond `BUFSIZE` fail with
`BufferRange` (10), with or without a shape; `GETLIMB` of a limb at or beyond `LIMBCOUNT` fails with `BadIndex` (11),
after the register checks. -/
def Obligations.OutOfRangeAccessFails : Prop :=
  (∀ (s : State) (byte : Imm32) (addr : Imm64), s.cfg.bufsize ≤ addr.toNat →
    (byte.toNat < 256 → exec (.bufwr byte addr) s = failed s 0x18 10) ∧ exec (.bufrd addr) s = failed s 0x19 10) ∧
  (∀ (s : State) (sh : Shape) (a : Reg) (i : Imm32) (v : Nat), Ready s sh [a] → s.elem a.toNat = some v →
    sh.limbcount ≤ i.toNat → exec (.getlimb a i) s = failed s 0x14 11)

/-! ## Checks common to the commands (60_exceptions.md rules R282, R283) -/

/-- Rules R22, R282, R283: with no shape in force, each of the 16 commands that need one fails with `NoShape` (6), whatever its
operands. -/
def Obligations.CommandsNeedShape : Prop :=
  ∀ (s : State) (i : Instr), s.shape = none →
    opcodeOf i ∈ ([0x10, 0x11, 0x12, 0x13, 0x14, 0x20, 0x21, 0x22, 0x23, 0x24, 0x25, 0x28, 0x29, 0x30, 0x40, 0x41] :
      List Byte) →
    exec i s = failed s (opcodeOf i) 6

/-- Rules R73, R282, R283: with a shape in force, a register field at or above `NREG` fails the command with `BadRegister` (7),
before any valid bit is looked at; `INV` gets so far only when `INV_OK = 1`. -/
def Obligations.RegisterBeyondNregFails : Prop :=
  ∀ (s : State) (sh : Shape) (d a b : Reg), s.shape = some sh →
    (s.cfg.nreg ≤ d.toNat ∨ s.cfg.nreg ≤ a.toNat →
      exec (.copy d a) s = failed s 0x10 7 ∧ exec (.sqr d a) s = failed s 0x23 7 ∧
      (∀ k, exec (.sqrn d a k) s = failed s 0x24 7) ∧ exec (.fred d a) s = failed s 0x25 7 ∧
      (∀ ovf, exec (.reds d a ovf) s = failed s 0x28 7) ∧ (sh.invOk = true → exec (.inv d a) s = failed s 0x30 7)) ∧
    (s.cfg.nreg ≤ d.toNat ∨ s.cfg.nreg ≤ a.toNat ∨ s.cfg.nreg ≤ b.toNat →
      exec (.add d a b) s = failed s 0x20 7 ∧ exec (.sub d a b) s = failed s 0x21 7 ∧
      exec (.mul d a b) s = failed s 0x22 7 ∧ exec (.redl d a b) s = failed s 0x29 7) ∧
    (s.cfg.nreg ≤ d.toNat → ∀ v, exec (.setword d v) s = failed s 0x11 7) ∧
    (s.cfg.nreg ≤ a.toNat → ∀ k, exec (.getlimb a k) s = failed s 0x14 7)

/-- Rules R10, R27, R282, R283: with the registers in the file, a source whose valid bit is 0 fails the command with
`Uninit` (8), before any value is used. -/
def Obligations.UnwrittenSourceFails : Prop :=
  ∀ (s : State) (sh : Shape) (d a b : Reg), Ready s sh [d, a, b] →
    (s.elem a.toNat = none →
      exec (.copy d a) s = failed s 0x10 8 ∧ exec (.sqr d a) s = failed s 0x23 8 ∧
      (∀ k, exec (.sqrn d a k) s = failed s 0x24 8) ∧ exec (.fred d a) s = failed s 0x25 8 ∧
      (∀ ovf, exec (.reds d a ovf) s = failed s 0x28 8) ∧ (sh.invOk = true → exec (.inv d a) s = failed s 0x30 8) ∧
      (∀ k, exec (.getlimb a k) s = failed s 0x14 8)) ∧
    (s.elem a.toNat = none ∨ s.elem b.toNat = none →
      exec (.add d a b) s = failed s 0x20 8 ∧ exec (.sub d a b) s = failed s 0x21 8 ∧
      exec (.mul d a b) s = failed s 0x22 8 ∧ exec (.redl d a b) s = failed s 0x29 8)

/-! ## The reducer (42_reducer.md) -/

/-- The spec's own inference R152: facts (a) to (d) about `fold`, for every accepted shape and every natural. -/
def Obligations.FoldFacts : Prop :=
  ∀ (cfg : Config) (bits : Imm32) (word : Imm64) (sh : Shape) (v : Nat), derive cfg bits word = .ok sh →
    sh.fold v ≡ v [MOD sh.prime] ∧
    (v < sh.top → sh.fold v = v) ∧
    (sh.top ≤ v → sh.fold v < v) ∧
    sh.fold v ≤ sh.top - 1 + v / sh.top * word.toNat ∧
    (sh.top ≤ sh.fold v → sh.fold v - sh.top ≤ v / sh.top * word.toNat - 1)

/-- The spec's own inference R157: the bounds (a) to (d) for an accepted regular shape, and (e) for every accepted shape. -/
def Obligations.ReducerBounds : Prop :=
  ∀ (cfg : Config) (bits : Imm32) (word : Imm64) (sh : Shape), derive cfg bits word = .ok sh →
    (sh.Regular →
      (3 * word.toNat ≤ sh.top ∧ word.toNat ^ 2 < sh.top) ∧
      (∀ v, v < 2 * sh.top + 2 * word.toNat → sh.fold v < sh.top + word.toNat) ∧
      (∀ v, v < 2 * sh.top + 2 * word.toNat → ∃ r, sh.reduceSmall v = .ok r ∧ sh.WeaklyReduced r) ∧
      (∀ v, v < (sh.top + word.toNat) ^ 2 → ∃ r, sh.reduceLong v = .ok r ∧ sh.WeaklyReduced r) ∧
      (∀ v, sh.WeaklyReduced v → v < 2 * sh.prime)) ∧
    (∀ v r, sh.reduceSmall v = .ok r → r ≡ v [MOD sh.prime] ∧ r < 2 ^ sh.width) ∧
    (∀ v r, sh.reduceLong v = .ok r → r ≡ v [MOD sh.prime] ∧ r < 2 ^ sh.width)

/-- Rules R153, R158: `REDS` on the value `v = E[a] + 2^W·ovf`: the first fold when it fits the register, else the second
when that fits, else `ResultOverflow` (13) and nothing written. -/
def Obligations.RedsReducesExtendedValue : Prop :=
  ∀ (s : State) (sh : Shape) (d a : Reg) (ovf : Imm64) (x v : Nat), Ready s sh [d, a] → s.elem a.toNat = some x →
    v = x + 2 ^ (64 * sh.limbcount) * ovf.toNat →
    exec (.reds d a ovf) s =
      if sh.fold v < 2 ^ (64 * sh.limbcount) then wrote s d (sh.fold v)
      else if sh.fold (sh.fold v) < 2 ^ (64 * sh.limbcount) then wrote s d (sh.fold (sh.fold v))
      else failed s 0x28 13

/-- Rules R153, R154, R159: `REDL` on the value `v = E[a] + 2^W·E[b]`: two folds, then as `REDS`. -/
def Obligations.RedlReducesDoubleWidthValue : Prop :=
  ∀ (s : State) (sh : Shape) (d a b : Reg) (x y v : Nat), Ready s sh [d, a, b] → s.elem a.toNat = some x →
    s.elem b.toNat = some y → v = sh.fold (sh.fold (x + 2 ^ (64 * sh.limbcount) * y)) →
    exec (.redl d a b) s =
      if sh.fold v < 2 ^ (64 * sh.limbcount) then wrote s d (sh.fold v)
      else if sh.fold (sh.fold v) < 2 ^ (64 * sh.limbcount) then wrote s d (sh.fold (sh.fold v))
      else failed s 0x29 13

/-- Rules R157, R158, R159: for a regular shape, `REDS` of a value below `2T + 2c` and `REDL` of one below `(T + c)²`
complete, with a weakly reduced result congruent to the value modulo `p`. -/
def Obligations.ReducerCommandsComplete : Prop :=
  ∀ (s : State) (sh : Shape) (d a b : Reg) (ovf : Imm64) (x y : Nat), s.Inv → Ready s sh [d, a, b] → sh.Regular →
    s.elem a.toNat = some x → s.elem b.toNat = some y →
    (x + 2 ^ sh.width * ovf.toNat < 2 * sh.top + 2 * sh.word.toNat →
      ∃ r, exec (.reds d a ovf) s = wrote s d r ∧ sh.WeaklyReduced r ∧ r ≡ x + 2 ^ sh.width * ovf.toNat [MOD sh.prime]) ∧
    (x + 2 ^ sh.width * y < (sh.top + sh.word.toNat) ^ 2 →
      ∃ r, exec (.redl d a b) s = wrote s d r ∧ sh.WeaklyReduced r ∧ r ≡ x + 2 ^ sh.width * y [MOD sh.prime])

/-! ## Field operations (43_fieldops.md) -/

/-- Rules R153, R181: `ADD` on the exact sum: the first fold when it fits the register, else the second when that fits, else
`ResultOverflow` (13) and nothing written. Any of the registers may coincide (R313). -/
def Obligations.AddWritesReducedSum : Prop :=
  ∀ (s : State) (sh : Shape) (d a b : Reg) (x y v : Nat), Ready s sh [d, a, b] → s.elem a.toNat = some x →
    s.elem b.toNat = some y → v = x + y →
    exec (.add d a b) s =
      if sh.fold v < 2 ^ (64 * sh.limbcount) then wrote s d (sh.fold v)
      else if sh.fold (sh.fold v) < 2 ^ (64 * sh.limbcount) then wrote s d (sh.fold (sh.fold v))
      else failed s 0x20 13

/-- Rules R153, R182: `SUB` fails with `SubUnderflow` (12) exactly when `y > x + p`; else it reduces `x + p - y` as `ADD`
does. -/
def Obligations.SubWritesReducedDifference : Prop :=
  ∀ (s : State) (sh : Shape) (d a b : Reg) (x y v : Nat), Ready s sh [d, a, b] → s.elem a.toNat = some x →
    s.elem b.toNat = some y →
    (x + sh.prime < y → exec (.sub d a b) s = failed s 0x21 12) ∧
    (v + y = x + sh.prime → exec (.sub d a b) s =
      if sh.fold v < 2 ^ (64 * sh.limbcount) then wrote s d (sh.fold v)
      else if sh.fold (sh.fold v) < 2 ^ (64 * sh.limbcount) then wrote s d (sh.fold (sh.fold v))
      else failed s 0x21 13)

/-- Rules R153, R154, R183, R184: `MUL` and `SQR` on the exact product: two folds, then one more or two more as `ADD`. -/
def Obligations.MulAndSqrWriteReducedProduct : Prop :=
  ∀ (s : State) (sh : Shape) (d a b : Reg) (x y v : Nat), Ready s sh [d, a, b] → s.elem a.toNat = some x →
    s.elem b.toNat = some y →
    (v = sh.fold (sh.fold (x * y)) → exec (.mul d a b) s =
      if sh.fold v < 2 ^ (64 * sh.limbcount) then wrote s d (sh.fold v)
      else if sh.fold (sh.fold v) < 2 ^ (64 * sh.limbcount) then wrote s d (sh.fold (sh.fold v))
      else failed s 0x22 13) ∧
    (v = sh.fold (sh.fold (x ^ 2)) → exec (.sqr d a) s =
      if sh.fold v < 2 ^ (64 * sh.limbcount) then wrote s d (sh.fold v)
      else if sh.fold (sh.fold v) < 2 ^ (64 * sh.limbcount) then wrote s d (sh.fold (sh.fold v))
      else failed s 0x23 13)

/-- The spec's own inference in rule R184: `SQR Ed, Ea` and `MUL Ed, Ea, Ea` write the same value, bit for bit, and answer
alike, in every state. -/
def Obligations.SqrEqualsMul : Prop :=
  ∀ (s t u : State) (d a : Reg), exec (.sqr d a) s = .next t → exec (.mul d a a) s = .next u →
    t.e = u.e ∧ t.responses = u.responses ∧ t.buf = u.buf ∧ t.shape = u.shape ∧ t.err = u.err

/-- Rule R185: `SQRN` applies `k` squarings, reduction included, in sequence; it writes the last value, and when one of
them does not fit it fails with `ResultOverflow` (13) and writes nothing. `k = 0` copies. -/
def Obligations.SqrnSquaresRepeatedly : Prop :=
  ∀ (s : State) (sh : Shape) (d a : Reg) (k : Imm32) (v : Nat → Nat), Ready s sh [d, a] →
    s.elem a.toNat = some (v 0) →
    ((∀ i < k.toNat, sh.reduceLong (v i * v i) = .ok (v (i + 1))) → exec (.sqrn d a k) s = wrote s d (v k.toNat)) ∧
    (∀ j < k.toNat, (∀ i < j, sh.reduceLong (v i * v i) = .ok (v (i + 1))) →
      (∀ r, sh.reduceLong (v j * v j) ≠ .ok r) → exec (.sqrn d a k) s = failed s 0x24 13)

/-- Rule R186: `FRED` subtracts `p` once when the register is at least `p`, else copies; it never fails on a value. -/
def Obligations.FredSubtractsPrimeOnce : Prop :=
  ∀ (s : State) (sh : Shape) (d a : Reg) (x : Nat), Ready s sh [d, a] → s.elem a.toNat = some x →
    exec (.fred d a) s = wrote s d (if sh.prime ≤ x then x - sh.prime else x)

/-- The spec's own inference R187 (a) to (d): for a regular shape and weakly reduced sources, `ADD`, `MUL`, `SQR` and
`SQRN` complete with weakly reduced results, `SUB` does too unless `y > x + p` (never when `y ≤ p`), and `FRED` gives the
canonical value `x mod p`. -/
def Obligations.FieldOpsClosure : Prop :=
  ∀ (s : State) (sh : Shape) (d a b : Reg) (x y : Nat), s.Inv → Ready s sh [d, a, b] → sh.Regular →
    s.elem a.toNat = some x → s.elem b.toNat = some y → sh.WeaklyReduced x → sh.WeaklyReduced y →
    (∃ r, exec (.add d a b) s = wrote s d r ∧ sh.WeaklyReduced r) ∧
    (∃ r, exec (.mul d a b) s = wrote s d r ∧ sh.WeaklyReduced r) ∧
    (∃ r, exec (.sqr d a) s = wrote s d r ∧ sh.WeaklyReduced r) ∧
    (∀ k, ∃ r, exec (.sqrn d a k) s = wrote s d r ∧ sh.WeaklyReduced r) ∧
    (y ≤ x + sh.prime → ∃ r, exec (.sub d a b) s = wrote s d r ∧ sh.WeaklyReduced r) ∧
    (x + sh.prime < y → exec (.sub d a b) s = failed s 0x21 12) ∧
    exec (.fred d a) s = wrote s d (x % sh.prime) ∧ x % sh.prime < sh.prime

/-- The spec's own inference R188: the congruences modulo `p` of the six commands, for every accepted shape and every
source value, whenever the command answers `OK`. -/
def Obligations.FieldOpsCongruences : Prop :=
  ∀ (s t : State) (sh : Shape) (d a b : Reg) (k : Imm32) (x y : Nat), s.Inv → s.shape = some sh →
    s.elem a.toNat = some x → s.elem b.toNat = some y → Ok t →
    (exec (.add d a b) s = .next t → ∃ r, t.elem d.toNat = some r ∧ r ≡ x + y [MOD sh.prime]) ∧
    (exec (.sub d a b) s = .next t → ∃ r, t.elem d.toNat = some r ∧ r + y ≡ x [MOD sh.prime]) ∧
    (exec (.mul d a b) s = .next t → ∃ r, t.elem d.toNat = some r ∧ r ≡ x * y [MOD sh.prime]) ∧
    (exec (.sqr d a) s = .next t → ∃ r, t.elem d.toNat = some r ∧ r ≡ x ^ 2 [MOD sh.prime]) ∧
    (exec (.sqrn d a k) s = .next t → ∃ r, t.elem d.toNat = some r ∧ r ≡ x ^ (2 ^ k.toNat) [MOD sh.prime]) ∧
    (exec (.fred d a) s = .next t → ∃ r, t.elem d.toNat = some r ∧ r ≡ x [MOD sh.prime])

/-- The spec's own inference R189: for a regular shape and canonical `x`, `y`, adding `y`, subtracting it and reducing
gives `x` back, and likewise subtracting, adding and reducing; every command on the way completes. -/
def Obligations.AddSubRoundTrip : Prop :=
  ∀ (s : State) (sh : Shape) (d a b : Reg) (x y : Nat), s.Inv → Ready s sh [d, a, b] → sh.Regular → d ≠ b →
    s.elem a.toNat = some x → s.elem b.toNat = some y → sh.Canonical x → sh.Canonical y →
    (∃ t u v, exec (.add d a b) s = .next t ∧ exec (.sub d d b) t = .next u ∧ exec (.fred d d) u = .next v ∧
      Ok t ∧ Ok u ∧ Ok v ∧ v.elem d.toNat = some x) ∧
    (∃ t u v, exec (.sub d a b) s = .next t ∧ exec (.add d d b) t = .next u ∧ exec (.fred d d) u = .next v ∧
      Ok t ∧ Ok u ∧ Ok v ∧ v.elem d.toNat = some x)

/-! ## The inverter (44_inverter.md) -/

/-- Rules R221, R225, R256, R283: with `INV_OK = 0`, `INV` and `JOIN` fail with `InvalidShape` (1) before any register is
looked at. -/
def Obligations.InverterRefusesShapeWithoutChain : Prop :=
  ∀ (s : State) (sh : Shape) (d a : Reg) (parts : Imm32), s.shape = some sh → sh.invOk = false →
    exec (.inv d a) s = failed s 0x30 1 ∧ exec (.join d a parts) s = failed s 0x41 1

/-- Rules R187, R220, R225: for a regular shape with an inverter and a weakly reduced source, `INV` completes and writes a
weakly reduced value congruent to `E[a]^(p-2)` modulo `p`. -/
def Obligations.InvWritesFermatPower : Prop :=
  ∀ (s : State) (sh : Shape) (d a : Reg) (x : Nat), s.Inv → Ready s sh [d, a] → sh.Regular → sh.invOk = true →
    s.elem a.toNat = some x → sh.WeaklyReduced x →
    ∃ r, exec (.inv d a) s = wrote s d r ∧ sh.WeaklyReduced r ∧ r ≡ x ^ (sh.prime - 2) [MOD sh.prime]

/-- Rule R226: `INV` of the number 0 completes and writes the number 0, for every accepted shape with an inverter. -/
def Obligations.InvOfZeroIsZero : Prop :=
  ∀ (s : State) (sh : Shape) (d a : Reg), s.Inv → Ready s sh [d, a] → sh.invOk = true → s.elem a.toNat = some 0 →
    exec (.inv d a) s = wrote s d 0

/-- The spec's own inference R228: whenever `INV` answers `OK` its result is congruent to `E[a]^(p-2)`, for every accepted
shape; and for a prime `p`, a regular shape, and a weakly reduced source that is no multiple of `p`, the product with the
inverse, finally reduced, is 1. -/
def Obligations.InverseTimesElementIsOne : Prop :=
  (∀ (s t : State) (sh : Shape) (d a : Reg) (x : Nat), s.Inv → s.shape = some sh → s.elem a.toNat = some x →
    exec (.inv d a) s = .next t → Ok t →
    ∃ r, t.elem d.toNat = some r ∧ r ≡ x ^ (sh.prime - 2) [MOD sh.prime]) ∧
  (∀ (s : State) (sh : Shape) (d a : Reg) (x : Nat), s.Inv → Ready s sh [d, a] → sh.Regular → sh.invOk = true →
    sh.prime.Prime → d ≠ a → s.elem a.toNat = some x → sh.WeaklyReduced x → ¬ sh.prime ∣ x →
    ∃ t u v, exec (.inv d a) s = .next t ∧ exec (.mul d a d) t = .next u ∧ exec (.fred d d) u = .next v ∧
      v.elem d.toNat = some 1)

/-! ## Secret sharing (45_sharing.md) -/

/-- Rules R187, R251, R252: for a regular shape and weakly reduced coefficients and point, `SPLIT` completes and writes
the canonical value of the polynomial at the point, for every `parts ≥ 2` whose run lies in the register file. -/
def Obligations.SplitEvaluatesPolynomial : Prop :=
  ∀ (s : State) (sh : Shape) (d a b : Reg) (parts : Imm32) (co : Nat → Nat) (x : Nat), s.Inv → Ready s sh [d, b] →
    sh.Regular → 2 ≤ parts.toNat → a.toNat + parts.toNat ≤ s.cfg.nreg →
    (∀ i < parts.toNat, s.elem (a.toNat + i) = some (co i) ∧ sh.WeaklyReduced (co i)) →
    s.elem b.toNat = some x → sh.WeaklyReduced x →
    exec (.split d a b parts) s = wrote s d ((∑ i ∈ Finset.range parts.toNat, co i * x ^ i) % sh.prime)

/-- The spec's own inference R252: for every accepted shape, whenever `SPLIT` answers `OK`, `E[d]` is congruent to the
polynomial's value, and only `E[d]` and `V[d]` have changed. -/
def Obligations.SplitCongruence : Prop :=
  ∀ (s t : State) (sh : Shape) (d a b : Reg) (parts : Imm32) (co : Nat → Nat) (x : Nat), s.Inv → s.shape = some sh →
    (∀ i < parts.toNat, s.elem (a.toNat + i) = some (co i)) → s.elem b.toNat = some x →
    exec (.split d a b parts) s = .next t → Ok t →
    ∃ r, exec (.split d a b parts) s = wrote s d r ∧ t.elem d.toNat = some r ∧
      r ≡ ∑ i ∈ Finset.range parts.toNat, co i * x ^ i [MOD sh.prime]

/-- Rules R187, R256, R259, R283: for a regular shape with an inverter and weakly reduced shares, and every `parts` from 2 to
`PARTS_MAX` whose run lies in the register file, `JOIN` completes with a canonical value when no `x[i]` is above
`x[j] + p`, and fails with `SubUnderflow` (12) when some `x[i]` is. -/
def Obligations.JoinCompletes : Prop :=
  ∀ (s : State) (sh : Shape) (d a : Reg) (parts : Imm32) (xs ys : Nat → Nat), s.Inv → Ready s sh [d] → sh.Regular →
    sh.invOk = true → 2 ≤ parts.toNat → parts.toNat ≤ s.cfg.partsMax → a.toNat + 2 * parts.toNat ≤ s.cfg.nreg →
    (∀ i < parts.toNat, s.elem (a.toNat + 2 * i) = some (xs i) ∧ s.elem (a.toNat + 2 * i + 1) = some (ys i) ∧
      sh.WeaklyReduced (xs i) ∧ sh.WeaklyReduced (ys i)) →
    ((∀ i < parts.toNat, ∀ j < parts.toNat, xs i ≤ xs j + sh.prime) →
      ∃ v, exec (.join d a parts) s = wrote s d v ∧ sh.Canonical v) ∧
    ((∃ i < parts.toNat, ∃ j < parts.toNat, xs j + sh.prime < xs i) → exec (.join d a parts) s = failed s 0x41 12)

/-- The spec's own inference R260: for a prime `p`, a regular shape with an inverter, and weakly reduced shares whose `x`
are pairwise distinct and non-zero modulo `p`, none above another plus `p` (JoinCompletes says what happens else), at the
values `y` of a polynomial of degree below `parts`, `JOIN` writes the polynomial's value at zero. -/
def Obligations.JoinRecoversSecret : Prop :=
  ∀ (s : State) (sh : Shape) (d a : Reg) (parts : Imm32) (xs ys co : Nat → Nat), s.Inv → Ready s sh [d] → sh.Regular →
    sh.invOk = true → sh.prime.Prime → 2 ≤ parts.toNat → parts.toNat ≤ s.cfg.partsMax →
    a.toNat + 2 * parts.toNat ≤ s.cfg.nreg →
    (∀ i < parts.toNat, s.elem (a.toNat + 2 * i) = some (xs i) ∧ s.elem (a.toNat + 2 * i + 1) = some (ys i) ∧
      sh.WeaklyReduced (xs i) ∧ sh.WeaklyReduced (ys i)) →
    (∀ i < parts.toNat, ∀ j < parts.toNat, xs i ≤ xs j + sh.prime) →
    (∀ i < parts.toNat, ¬ sh.prime ∣ xs i) →
    (∀ i < parts.toNat, ∀ j < parts.toNat, xs i ≡ xs j [MOD sh.prime] → i = j) →
    (∀ i < parts.toNat, ys i ≡ ∑ k ∈ Finset.range parts.toNat, co k * xs i ^ k [MOD sh.prime]) →
    exec (.join d a parts) s = wrote s d (co 0 % sh.prime)

/-- Rule R257: two shares with the same `x`, or one with `x` zero, modulo `p`, make `JOIN` answer `OK` and write 0: a
silent wrong answer, for a regular shape with an inverter, weakly reduced shares, and no `x[i]` above `x[j] + p`
(JoinCompletes says what happens else). -/
def Obligations.JoinDegeneratePointsGiveZero : Prop :=
  ∀ (s : State) (sh : Shape) (d a : Reg) (parts : Imm32) (xs ys : Nat → Nat), s.Inv → Ready s sh [d] → sh.Regular →
    sh.invOk = true → 2 ≤ parts.toNat → parts.toNat ≤ s.cfg.partsMax → a.toNat + 2 * parts.toNat ≤ s.cfg.nreg →
    (∀ i < parts.toNat, s.elem (a.toNat + 2 * i) = some (xs i) ∧ s.elem (a.toNat + 2 * i + 1) = some (ys i) ∧
      sh.WeaklyReduced (xs i) ∧ sh.WeaklyReduced (ys i)) →
    (∀ i < parts.toNat, ∀ j < parts.toNat, xs i ≤ xs j + sh.prime) →
    ((∃ i < parts.toNat, xs i ≡ 0 [MOD sh.prime]) ∨
      ∃ i < parts.toNat, ∃ j < parts.toNat, i ≠ j ∧ xs i ≡ xs j [MOD sh.prime]) →
    exec (.join d a parts) s = wrote s d 0

/-- Rules R251, R256, R258, R282, R283: with a shape in force (and `INV_OK = 1` for `JOIN`), the checks of `SPLIT` and
`JOIN` in their order: `BadParts` (9), `BadRegister` (7) for a field or a run outside the file, `AllocationFailure` (4)
when `parts > PARTS_MAX`, `Uninit` (8) for a source never written. -/
def Obligations.SharingErrors : Prop :=
  ∀ (s : State) (sh : Shape) (d a b : Reg) (parts : Imm32), s.shape = some sh →
    (parts.toNat < 2 → exec (.split d a b parts) s = failed s 0x40 9 ∧
      (sh.invOk = true → exec (.join d a parts) s = failed s 0x41 9)) ∧
    (2 ≤ parts.toNat →
      (s.cfg.nreg ≤ d.toNat ∨ s.cfg.nreg ≤ b.toNat ∨ s.cfg.nreg < a.toNat + parts.toNat →
        exec (.split d a b parts) s = failed s 0x40 7) ∧
      (d.toNat < s.cfg.nreg → b.toNat < s.cfg.nreg → a.toNat + parts.toNat ≤ s.cfg.nreg →
        (s.elem b.toNat = none ∨ ∃ i < parts.toNat, s.elem (a.toNat + i) = none) →
        exec (.split d a b parts) s = failed s 0x40 8) ∧
      (sh.invOk = true →
        (s.cfg.nreg ≤ d.toNat ∨ s.cfg.nreg < a.toNat + 2 * parts.toNat →
          exec (.join d a parts) s = failed s 0x41 7) ∧
        (d.toNat < s.cfg.nreg → a.toNat + 2 * parts.toNat ≤ s.cfg.nreg →
          (s.cfg.partsMax < parts.toNat → exec (.join d a parts) s = failed s 0x41 4) ∧
          (parts.toNat ≤ s.cfg.partsMax → (∃ i < 2 * parts.toNat, s.elem (a.toNat + i) = none) →
            exec (.join d a parts) s = failed s 0x41 8))))
end

