-- ==== Sys2Proof/Laws/Decode.lean ====
section
/-! SUPPORT. The field layout of a command word (rule R71): taking a word apart and putting it together are inverse. -/

namespace Sys2Proof

theorem cmdOfFields_toNat (f : Fields) :
    (cmdOfFields f).toNat = f.opcode.toNat * 2 ^ 120 + f.rd.toNat * 2 ^ 112 + f.rs1.toNat * 2 ^ 104 +
      f.rs2.toNat * 2 ^ 96 + f.imm32.toNat * 2 ^ 64 + f.imm64.toNat := by
  rw [cmdOfFields, BitVec.toNat_ofNat]
  refine Nat.mod_eq_of_lt ?_
  have h1 := f.opcode.isLt
  have h2 := f.rd.isLt
  have h3 := f.rs1.isLt
  have h4 := f.rs2.isLt
  have h5 := f.imm32.isLt
  have h6 := f.imm64.isLt
  omega

/-- The number of rule R71 falls apart into its six fields. -/
theorem slices_of_fields {o d a b i q : Nat} (ho : o < 2 ^ 8) (hd : d < 2 ^ 8) (ha : a < 2 ^ 8) (hb : b < 2 ^ 8)
    (hi : i < 2 ^ 32) (hq : q < 2 ^ 64) {v : Nat}
    (hv : v = o * 2 ^ 120 + d * 2 ^ 112 + a * 2 ^ 104 + b * 2 ^ 96 + i * 2 ^ 64 + q) :
    v / 2 ^ 120 % 2 ^ 8 = o ∧ v / 2 ^ 112 % 2 ^ 8 = d ∧ v / 2 ^ 104 % 2 ^ 8 = a ∧ v / 2 ^ 96 % 2 ^ 8 = b ∧
      v / 2 ^ 64 % 2 ^ 32 = i ∧ v / 2 ^ 0 % 2 ^ 64 = q := by
  subst hv
  refine ⟨?_, ?_, ?_, ?_, ?_, ?_⟩ <;> omega

/-- The fields of a word put together from fields are those fields. -/
@[simp] theorem fieldsOfCmd_cmdOfFields (f : Fields) : fieldsOfCmd (cmdOfFields f) = f := by
  obtain ⟨h1, h2, h3, h4, h5, h6⟩ := slices_of_fields f.opcode.isLt f.rd.isLt f.rs1.isLt f.rs2.isLt f.imm32.isLt
    f.imm64.isLt (cmdOfFields_toNat f)
  have slice : ∀ {k : Nat} (start : Nat) (x : BitVec k), (cmdOfFields f).toNat / 2 ^ start % 2 ^ k = x.toNat →
      (cmdOfFields f).extractLsb' start k = x := fun start x h =>
    BitVec.eq_of_toNat_eq (by rw [BitVec.extractLsb'_toNat, Nat.shiftRight_eq_div_pow, h])
  rw [fieldsOfCmd, slice _ _ h1, slice _ _ h2, slice _ _ h3, slice _ _ h4, slice _ _ h5, slice _ _ h6]

/-- A word put together from the fields of a word is that word. -/
@[simp] theorem cmdOfFields_fieldsOfCmd (w : Cmd) : cmdOfFields (fieldsOfCmd w) = w := by
  apply BitVec.eq_of_toNat_eq
  rw [cmdOfFields_toNat]
  have h := w.isLt
  simp only [fieldsOfCmd, BitVec.extractLsb'_toNat, Nat.shiftRight_eq_div_pow]
  omega

end Sys2Proof
end

