-- ==== Sys2Proof/Laws/Memory.lean ====
section
/-! SUPPORT. The laws of `BUF` (rule R50): what a read gives after a write, and that every operation keeps the
canonical form and the bound on the listed addresses. -/

namespace Sys2Proof.Machine

@[simp] theorem Memory.read_nil (a : Nat) : Memory.read [] a = bufFill := rfl

theorem Memory.read_cons (c : Host.Cell) (m : Memory) (a : Nat) :
    Memory.read (c :: m) a = if c.1 = a then c.2 else Memory.read m a := rfl

theorem Memory.read_of_not_listed (m : Memory) (a : Nat) (h : ∀ c ∈ m, c.1 ≠ a) : m.read a = bufFill := by
  induction m with
  | nil => rfl
  | cons c m ih =>
    rw [Memory.read_cons, if_neg (h c (by simp))]
    exact ih fun d hd => h d (by simp [hd])

theorem Memory.mem_erase {m : Memory} {a : Nat} {c : Host.Cell} : c ∈ m.erase a ↔ c ∈ m ∧ c.1 ≠ a := by
  simp [Memory.erase]

theorem Memory.mem_place {m : Memory} {a : Nat} {b : Byte} {c : Host.Cell} :
    c ∈ m.place a b ↔ c = (a, b) ∨ c ∈ m := by
  induction m with
  | nil => simp [Memory.place]
  | cons d m ih =>
    unfold Memory.place
    split
    · simp
    · simp only [List.mem_cons, ih]; tauto

theorem Memory.read_erase_of_ne (m : Memory) {a a' : Nat} (h : a' ≠ a) : (m.erase a).read a' = m.read a' := by
  induction m with
  | nil => rfl
  | cons c m ih =>
    unfold Memory.erase at ih ⊢
    by_cases hc : c.1 = a
    · have : c.1 ≠ a' := fun h' => h (h' ▸ hc)
      simp only [List.filter_cons, hc, bne_self_eq_false, Bool.false_eq_true, if_false, ih]
      rw [Memory.read_cons, if_neg (hc ▸ this)]
    · simp only [List.filter_cons, bne_iff_ne, ne_eq, hc, not_false_eq_true, if_true, Memory.read_cons, ih]

theorem Memory.read_place_same (m : Memory) (a : Nat) (b : Byte) (h : ∀ c ∈ m, c.1 ≠ a) :
    (m.place a b).read a = b := by
  induction m with
  | nil => simp [Memory.place, Memory.read_cons]
  | cons c m ih =>
    unfold Memory.place
    split
    · simp [Memory.read_cons]
    · rw [Memory.read_cons, if_neg (h c (by simp))]
      exact ih fun d hd => h d (by simp [hd])

theorem Memory.read_place_of_ne (m : Memory) {a a' : Nat} (b : Byte) (h : a' ≠ a) :
    (m.place a b).read a' = m.read a' := by
  induction m with
  | nil => simp [Memory.place, Memory.read_cons, Ne.symm h]
  | cons c m ih =>
    unfold Memory.place
    split
    · simp [Memory.read_cons, Ne.symm h]
    · simp [Memory.read_cons, ih]

/-- A read of the byte just written gives that byte (rule R56). -/
theorem Memory.read_write_same (m : Memory) (a : Nat) (b : Byte) : (m.write a b).read a = b := by
  have hne : ∀ c ∈ m.erase a, c.1 ≠ a := fun c hc => (Memory.mem_erase.mp hc).2
  unfold Memory.write
  split
  · rename_i hb; rw [hb]; exact Memory.read_of_not_listed _ _ hne
  · exact Memory.read_place_same _ _ _ hne

/-- A write leaves every other byte alone (rule R50). -/
theorem Memory.read_write_of_ne (m : Memory) {a a' : Nat} (b : Byte) (h : a' ≠ a) :
    (m.write a b).read a' = m.read a' := by
  unfold Memory.write
  split
  · exact Memory.read_erase_of_ne m h
  · rw [Memory.read_place_of_ne _ _ h, Memory.read_erase_of_ne m h]

/-- All that a read can give after one write. -/
theorem Memory.read_write (m : Memory) (a a' : Nat) (b : Byte) :
    (m.write a b).read a' = if a' = a then b else m.read a' := by
  split
  · rename_i h; rw [h]; exact Memory.read_write_same m a b
  · rename_i h; exact Memory.read_write_of_ne m b h

/-- All that a read can give after `MemWrite`: the byte of the list at its place, else the byte from before (R50). -/
theorem Memory.read_writeBytes (m : Memory) (addr : Nat) (bytes : List Byte) (a : Nat) :
    (m.writeBytes addr bytes).read a =
      if addr ≤ a ∧ a < addr + bytes.length then bytes.getD (a - addr) 0 else m.read a := by
  induction bytes generalizing m addr with
  | nil => rw [Memory.writeBytes, if_neg (by simp)]
  | cons b bs ih =>
    simp only [Memory.writeBytes, ih, Memory.read_write, List.length_cons]
    by_cases h1 : addr + 1 ≤ a ∧ a < addr + 1 + bs.length
    · obtain ⟨k, rfl⟩ : ∃ k, a = addr + 1 + k := ⟨a - (addr + 1), by omega⟩
      rw [if_pos h1, if_pos (by omega), show addr + 1 + k - (addr + 1) = k by omega,
        show addr + 1 + k - addr = k + 1 by omega]
      simp
    · by_cases h2 : a = addr
      · subst h2; simp
      · rw [if_neg h1, if_neg h2, if_neg (by omega)]

theorem Memory.length_readBytes (m : Memory) (addr n : Nat) : (m.readBytes addr n).length = n := by
  simp [Memory.readBytes]

/-! The canonical form. -/

theorem Memory.wf_nil : Memory.wf [] := by decide

theorem Memory.wf_erase {m : Memory} (h : m.wf) (a : Nat) : (m.erase a).wf :=
  ⟨h.1.filter _, fun c hc => h.2 c (Memory.mem_erase.mp hc).1⟩

theorem Memory.wf_place {m : Memory} (h : m.wf) {a : Nat} {b : Byte} (ha : ∀ c ∈ m, c.1 ≠ a) (hb : b ≠ bufFill) :
    (m.place a b).wf := by
  refine ⟨?_, fun c hc => ?_⟩
  · have hp := h.1
    clear h
    induction m with
    | nil => simp [Memory.place]
    | cons d m ih =>
      rw [List.pairwise_cons] at hp
      unfold Memory.place
      split
      · rename_i hlt
        refine List.pairwise_cons.mpr ⟨fun c hc => ?_, List.pairwise_cons.mpr hp⟩
        rcases List.mem_cons.mp hc with rfl | hc
        · exact hlt
        · exact Nat.lt_trans hlt (hp.1 c hc)
      · rename_i hlt
        refine List.pairwise_cons.mpr ⟨fun c hc => ?_, ih (fun c hc => ha c (by simp [hc])) hp.2⟩
        rcases Memory.mem_place.mp hc with rfl | hc
        · have := ha d (by simp)
          show d.1 < a
          omega
        · exact hp.1 c hc
  · rcases Memory.mem_place.mp hc with rfl | hc
    · exact hb
    · exact h.2 c hc

/-- A write keeps the canonical form. -/
theorem Memory.wf_write {m : Memory} (h : m.wf) (a : Nat) (b : Byte) : (m.write a b).wf := by
  unfold Memory.write
  split
  · exact Memory.wf_erase h a
  · rename_i hb
    exact Memory.wf_place (Memory.wf_erase h a) (fun c hc => (Memory.mem_erase.mp hc).2) hb

/-- `MemWrite` keeps the canonical form. -/
theorem Memory.wf_writeBytes {m : Memory} (h : m.wf) (addr : Nat) (bytes : List Byte) : (m.writeBytes addr bytes).wf := by
  induction bytes generalizing m addr with
  | nil => exact h
  | cons b bs ih => exact ih (Memory.wf_write h addr b) (addr + 1)

/-- A write lists no address but those listed before and its own. -/
theorem Memory.listed_write {m : Memory} {a : Nat} {b : Byte} {c : Host.Cell} (hc : c ∈ m.write a b) :
    c ∈ m ∨ c.1 = a := by
  unfold Memory.write at hc
  split at hc
  · exact .inl (Memory.mem_erase.mp hc).1
  · rcases Memory.mem_place.mp hc with rfl | hc
    · exact .inr rfl
    · exact .inl (Memory.mem_erase.mp hc).1

/-- `MemWrite` inside a bound keeps the listed addresses inside it. -/
theorem Memory.bound_writeBytes {m : Memory} {addr size : Nat} {bytes : List Byte} (h : ∀ c ∈ m, c.1 < size)
    (hb : addr + bytes.length ≤ size) : ∀ c ∈ m.writeBytes addr bytes, c.1 < size := by
  induction bytes generalizing m addr with
  | nil => exact h
  | cons b bs ih =>
    simp only [List.length_cons] at hb
    refine ih (m := m.write addr b) (addr := addr + 1) (fun c hc => ?_) (by omega)
    rcases Memory.listed_write hc with hc | hc
    · exact h c hc
    · omega

end Sys2Proof.Machine
end

