-- ==== Sys2Proof/Laws/State.lean ====
section
/-! SUPPORT. What each update of the state does to each field: one lemma per field per update. -/

namespace Sys2Proof.Machine

@[simp] theorem State.setElem_cfg (s : State) (i v : Nat) : (s.setElem i v).cfg = s.cfg := rfl
@[simp] theorem State.setElem_shape (s : State) (i v : Nat) : (s.setElem i v).shape = s.shape := rfl
@[simp] theorem State.setElem_e (s : State) (i v : Nat) : (s.setElem i v).e = s.e.set i (some v) := rfl
@[simp] theorem State.setElem_err (s : State) (i v : Nat) : (s.setElem i v).err = s.err := rfl
@[simp] theorem State.setElem_errop (s : State) (i v : Nat) : (s.setElem i v).errop = s.errop := rfl
@[simp] theorem State.setElem_buf (s : State) (i v : Nat) : (s.setElem i v).buf = s.buf := rfl
@[simp] theorem State.setElem_port (s : State) (i v : Nat) : (s.setElem i v).port = s.port := rfl
@[simp] theorem State.setElem_responses (s : State) (i v : Nat) : (s.setElem i v).responses = s.responses := rfl

@[simp] theorem State.install_cfg (s : State) (sh : Shape) : (s.install sh).cfg = s.cfg := rfl
@[simp] theorem State.install_shape (s : State) (sh : Shape) : (s.install sh).shape = some sh := rfl
@[simp] theorem State.install_e (s : State) (sh : Shape) : (s.install sh).e = List.replicate s.cfg.nreg none := rfl
@[simp] theorem State.install_err (s : State) (sh : Shape) : (s.install sh).err = s.err := rfl
@[simp] theorem State.install_errop (s : State) (sh : Shape) : (s.install sh).errop = s.errop := rfl
@[simp] theorem State.install_buf (s : State) (sh : Shape) : (s.install sh).buf = s.buf := rfl
@[simp] theorem State.install_port (s : State) (sh : Shape) : (s.install sh).port = s.port := rfl
@[simp] theorem State.install_responses (s : State) (sh : Shape) : (s.install sh).responses = s.responses := rfl

@[simp] theorem State.storeBytes_cfg (s : State) (addr : Nat) (bytes : List Byte) : (s.storeBytes addr bytes).cfg = s.cfg := rfl
@[simp] theorem State.storeBytes_shape (s : State) (addr : Nat) (bytes : List Byte) : (s.storeBytes addr bytes).shape = s.shape := rfl
@[simp] theorem State.storeBytes_e (s : State) (addr : Nat) (bytes : List Byte) : (s.storeBytes addr bytes).e = s.e := rfl
@[simp] theorem State.storeBytes_err (s : State) (addr : Nat) (bytes : List Byte) : (s.storeBytes addr bytes).err = s.err := rfl
@[simp] theorem State.storeBytes_errop (s : State) (addr : Nat) (bytes : List Byte) : (s.storeBytes addr bytes).errop = s.errop := rfl
@[simp] theorem State.storeBytes_buf (s : State) (addr : Nat) (bytes : List Byte) : (s.storeBytes addr bytes).buf = s.buf.writeBytes addr bytes := rfl
@[simp] theorem State.storeBytes_port (s : State) (addr : Nat) (bytes : List Byte) : (s.storeBytes addr bytes).port = s.port := rfl
@[simp] theorem State.storeBytes_responses (s : State) (addr : Nat) (bytes : List Byte) : (s.storeBytes addr bytes).responses = s.responses := rfl

@[simp] theorem State.respond_cfg (s : State) (data : Limb) : (s.respond data).cfg = s.cfg := rfl
@[simp] theorem State.respond_shape (s : State) (data : Limb) : (s.respond data).shape = s.shape := rfl
@[simp] theorem State.respond_e (s : State) (data : Limb) : (s.respond data).e = s.e := rfl
@[simp] theorem State.respond_err (s : State) (data : Limb) : (s.respond data).err = s.err := rfl
@[simp] theorem State.respond_errop (s : State) (data : Limb) : (s.respond data).errop = s.errop := rfl
@[simp] theorem State.respond_buf (s : State) (data : Limb) : (s.respond data).buf = s.buf := rfl
@[simp] theorem State.respond_port (s : State) (data : Limb) : (s.respond data).port = s.port := rfl
@[simp] theorem State.respond_responses (s : State) (data : Limb) : (s.respond data).responses = ⟨0, data⟩ :: s.responses := rfl

@[simp] theorem State.respond_responseWords (s : State) (data : Limb) : (s.respond data).responseWords = Response.word ⟨0, data⟩ :: s.responseWords := rfl

@[simp] theorem State.fail_cfg (s : State) (op : Byte) (k : ErrorKind) : (s.fail op k).cfg = s.cfg := rfl
@[simp] theorem State.fail_shape (s : State) (op : Byte) (k : ErrorKind) : (s.fail op k).shape = s.shape := rfl
@[simp] theorem State.fail_e (s : State) (op : Byte) (k : ErrorKind) : (s.fail op k).e = s.e := rfl
@[simp] theorem State.fail_err (s : State) (op : Byte) (k : ErrorKind) : (s.fail op k).err = if s.err = 0 then errorCode k else s.err := rfl
@[simp] theorem State.fail_errop (s : State) (op : Byte) (k : ErrorKind) : (s.fail op k).errop = if s.err = 0 then op else s.errop := rfl
@[simp] theorem State.fail_buf (s : State) (op : Byte) (k : ErrorKind) : (s.fail op k).buf = s.buf := rfl
@[simp] theorem State.fail_port (s : State) (op : Byte) (k : ErrorKind) : (s.fail op k).port = s.port := rfl
@[simp] theorem State.fail_responses (s : State) (op : Byte) (k : ErrorKind) : (s.fail op k).responses = ⟨errorCode k, 0⟩ :: s.responses := rfl

@[simp] theorem State.fail_responseWords (s : State) (op : Byte) (k : ErrorKind) : (s.fail op k).responseWords = Response.word ⟨errorCode k, 0⟩ :: s.responseWords := rfl

@[simp] theorem State.clearErr_cfg (s : State) : s.clearErr.cfg = s.cfg := rfl
@[simp] theorem State.clearErr_shape (s : State) : s.clearErr.shape = s.shape := rfl
@[simp] theorem State.clearErr_e (s : State) : s.clearErr.e = s.e := rfl
@[simp] theorem State.clearErr_err (s : State) : s.clearErr.err = 0 := rfl
@[simp] theorem State.clearErr_errop (s : State) : s.clearErr.errop = 0 := rfl
@[simp] theorem State.clearErr_buf (s : State) : s.clearErr.buf = s.buf := rfl
@[simp] theorem State.clearErr_port (s : State) : s.clearErr.port = s.port := rfl
@[simp] theorem State.clearErr_responses (s : State) : s.clearErr.responses = s.responses := rfl

@[simp] theorem State.takeEvent_cfg (s : State) : s.takeEvent.cfg = s.cfg := rfl
@[simp] theorem State.takeEvent_shape (s : State) : s.takeEvent.shape = s.shape := rfl
@[simp] theorem State.takeEvent_e (s : State) : s.takeEvent.e = s.e := rfl
@[simp] theorem State.takeEvent_err (s : State) : s.takeEvent.err = s.err := rfl
@[simp] theorem State.takeEvent_errop (s : State) : s.takeEvent.errop = s.errop := rfl
@[simp] theorem State.takeEvent_buf (s : State) : s.takeEvent.buf = s.buf := rfl
@[simp] theorem State.takeEvent_port (s : State) : s.takeEvent.port = s.port.tail := rfl
@[simp] theorem State.takeEvent_responses (s : State) : s.takeEvent.responses = s.responses := rfl

@[simp] theorem State.withFetchWord_cfg (s : State) (nbits w : Nat) : (s.withFetchWord nbits w).cfg = s.cfg := rfl
@[simp] theorem State.withFetchWord_shape (s : State) (nbits w : Nat) : (s.withFetchWord nbits w).shape = s.shape := rfl
@[simp] theorem State.withFetchWord_e (s : State) (nbits w : Nat) : (s.withFetchWord nbits w).e = s.e := rfl
@[simp] theorem State.withFetchWord_err (s : State) (nbits w : Nat) : (s.withFetchWord nbits w).err = s.err := rfl
@[simp] theorem State.withFetchWord_errop (s : State) (nbits w : Nat) : (s.withFetchWord nbits w).errop = s.errop := rfl
@[simp] theorem State.withFetchWord_buf (s : State) (nbits w : Nat) : (s.withFetchWord nbits w).buf = s.buf := rfl
@[simp] theorem State.withFetchWord_port (s : State) (nbits w : Nat) : (s.withFetchWord nbits w).port = .command (tableCmd nbits w) :: s.port := rfl
@[simp] theorem State.withFetchWord_responses (s : State) (nbits w : Nat) : (s.withFetchWord nbits w).responses = s.responses := rfl

@[simp] theorem State.afterReset_cfg (cfg : Config) (buf : Memory) (port : List HostEvent) :
    (State.afterReset cfg buf port).cfg = cfg := rfl
@[simp] theorem State.afterReset_shape (cfg : Config) (buf : Memory) (port : List HostEvent) :
    (State.afterReset cfg buf port).shape = none := rfl
@[simp] theorem State.afterReset_e (cfg : Config) (buf : Memory) (port : List HostEvent) :
    (State.afterReset cfg buf port).e = List.replicate cfg.nreg none := rfl
@[simp] theorem State.afterReset_err (cfg : Config) (buf : Memory) (port : List HostEvent) :
    (State.afterReset cfg buf port).err = 0 := rfl
@[simp] theorem State.afterReset_errop (cfg : Config) (buf : Memory) (port : List HostEvent) :
    (State.afterReset cfg buf port).errop = 0 := rfl
@[simp] theorem State.afterReset_buf (cfg : Config) (buf : Memory) (port : List HostEvent) :
    (State.afterReset cfg buf port).buf = buf := rfl
@[simp] theorem State.afterReset_port (cfg : Config) (buf : Memory) (port : List HostEvent) :
    (State.afterReset cfg buf port).port = port := rfl
@[simp] theorem State.afterReset_responses (cfg : Config) (buf : Memory) (port : List HostEvent) :
    (State.afterReset cfg buf port).responses = [] := rfl

@[simp] theorem resetEvent_cfg (content : List Byte) (s : State) :
    (resetEvent content s).cfg = s.cfg := rfl
@[simp] theorem resetEvent_shape (content : List Byte) (s : State) :
    (resetEvent content s).shape = none := rfl
@[simp] theorem resetEvent_e (content : List Byte) (s : State) :
    (resetEvent content s).e = List.replicate s.cfg.nreg none := rfl
@[simp] theorem resetEvent_err (content : List Byte) (s : State) :
    (resetEvent content s).err = 0 := rfl
@[simp] theorem resetEvent_errop (content : List Byte) (s : State) :
    (resetEvent content s).errop = 0 := rfl
@[simp] theorem resetEvent_buf (content : List Byte) (s : State) :
    (resetEvent content s).buf = Memory.writeBytes [] 0 (content.take s.cfg.bufsize) := rfl
@[simp] theorem resetEvent_port (content : List Byte) (s : State) :
    (resetEvent content s).port = s.port := rfl
@[simp] theorem resetEvent_responses (content : List Byte) (s : State) :
    (resetEvent content s).responses = s.responses := rfl

/-- Reading back a register that was written (rule R27): its value; every other register keeps its content. -/
theorem State.elem_setElem (s : State) (i j v : Nat) (hi : i < s.e.length) :
    (s.setElem i v).elem j = if j = i then some v else s.elem j := by
  by_cases h : j = i
  · subst h; simp [State.elem, hi]
  · simp [State.elem, h, List.getElem?_set_ne (Ne.symm h)]

/-- A register outside the file is not there to be written. -/
theorem State.setElem_of_length_le (s : State) (i v : Nat) (hi : s.e.length ≤ i) : s.setElem i v = s := by
  simp [State.setElem, List.set_eq_of_length_le hi]

end Sys2Proof.Machine
end

