-- ==== Sys2Proof/Laws/Ops.lean ====
section
/-! SUPPORT. For each shared operation one lemma that says once everything it can do; proofs cite these instead of
unfolding the operation. -/

namespace Sys2Proof.Machine

/-! Sequencing of checks. -/

@[simp] theorem ok_bind {α β : Type} (a : α) (f : α → Except ErrorKind β) : (Except.ok a >>= f) = f a := rfl

@[simp] theorem error_bind {α β : Type} (k : ErrorKind) (f : α → Except ErrorKind β) :
    ((Except.error k : Except ErrorKind α) >>= f) = .error k := rfl

@[simp] theorem pure_eq_ok {α : Type} (a : α) : (pure a : Except ErrorKind α) = .ok a := rfl

theorem bind_eq_ok {α β : Type} {x : Except ErrorKind α} {f : α → Except ErrorKind β} {b : β} :
    (x >>= f) = .ok b ↔ ∃ a, x = .ok a ∧ f a = .ok b := by
  cases x <;> simp

theorem bind_eq_error {α β : Type} {x : Except ErrorKind α} {f : α → Except ErrorKind β} {k : ErrorKind} :
    (x >>= f) = .error k ↔ x = .error k ∨ ∃ a, x = .ok a ∧ f a = .error k := by
  cases x <;> simp

/-! Checks of operands. -/

@[simp] theorem require_eq_ok {ok : Bool} {k : ErrorKind} {u : Unit} : require ok k = .ok u ↔ ok = true := by
  cases ok <;> simp [require]

@[simp] theorem require_eq_error {ok : Bool} {k k' : ErrorKind} :
    require ok k = .error k' ↔ ok = false ∧ k = k' := by
  cases ok <;> simp [require]

@[simp] theorem require_true (k : ErrorKind) : require true k = .ok () := rfl

@[simp] theorem require_false (k : ErrorKind) : require false k = .error k := rfl

theorem State.needShape_eq_ok {s : State} {sh : Shape} : s.needShape = .ok sh ↔ s.shape = some sh := by
  unfold State.needShape
  cases s.shape <;> simp

theorem State.needShape_eq_error {s : State} {k : ErrorKind} : s.needShape = .error k ↔ s.shape = none ∧ k = .noShape := by
  unfold State.needShape
  cases s.shape <;> simp [eq_comm]

theorem State.checkRegs_eq_ok {s : State} {rs : List Reg} {u : Unit} :
    s.checkRegs rs = .ok u ↔ ∀ r ∈ rs, r.toNat < s.cfg.nreg := by
  simp [State.checkRegs]

theorem State.checkRegs_eq_error {s : State} {rs : List Reg} {k : ErrorKind} :
    s.checkRegs rs = .error k ↔ (∃ r ∈ rs, s.cfg.nreg ≤ r.toNat) ∧ k = .badRegister := by
  simp [State.checkRegs, eq_comm (a := k)]

theorem State.checkRun_eq_ok {s : State} {base count : Nat} {u : Unit} :
    s.checkRun base count = .ok u ↔ base + count ≤ s.cfg.nreg := by
  simp [State.checkRun]

theorem State.checkRange_eq_ok {s : State} {addr len : Nat} {u : Unit} :
    s.checkRange addr len = .ok u ↔ addr + len ≤ s.cfg.bufsize := by
  simp [State.checkRange]

theorem State.readElem_eq_ok {s : State} {i v : Nat} : s.readElem i = .ok v ↔ s.elem i = some v := by
  unfold State.readElem
  cases s.elem i <;> simp

theorem State.readElem_eq_error {s : State} {i : Nat} {k : ErrorKind} :
    s.readElem i = .error k ↔ s.elem i = none ∧ k = .uninit := by
  unfold State.readElem
  cases s.elem i <;> simp [eq_comm]

/-- A run of registers reads as the list of their contents, in ascending order (rule R250). -/
theorem State.readRun_eq_ok {s : State} {base n : Nat} {vs : List Nat} :
    s.readRun base n = .ok vs ↔ vs.length = n ∧ ∀ i < n, s.elem (base + i) = vs[i]? := by
  induction n generalizing base vs with
  | zero =>
    simp only [State.readRun, Except.ok.injEq, Nat.not_lt_zero, false_imp_iff, implies_true, and_true]
    exact eq_comm.trans List.length_eq_zero_iff.symm
  | succ n ih =>
    simp only [State.readRun, bind_eq_ok, State.readElem_eq_ok, ih, pure_eq_ok, Except.ok.injEq]
    constructor
    · rintro ⟨v, hv, ws, ⟨hl, hw⟩, rfl⟩
      refine ⟨by simp [hl], fun i hi => ?_⟩
      rcases i with _ | i
      · simpa using hv
      · rw [show base + (i + 1) = base + 1 + i by omega, hw i (by omega)]; simp
    · rintro ⟨hl, h⟩
      rcases vs with _ | ⟨v, ws⟩
      · simp at hl
      · refine ⟨v, by simpa using h 0 (by omega), ws, ⟨by simpa using hl, fun i hi => ?_⟩, rfl⟩
        rw [show base + 1 + i = base + (i + 1) by omega, h (i + 1) (by omega)]; simp

/-- A share list reads as its pairs, in ascending order (rule R255). -/
theorem State.readShares_eq_ok {s : State} {base n : Nat} {ps : List (Nat × Nat)} :
    s.readShares base n = .ok ps ↔ ps.length = n ∧
      ∀ i < n, s.elem (base + 2 * i) = (ps.map Prod.fst)[i]? ∧ s.elem (base + 2 * i + 1) = (ps.map Prod.snd)[i]? := by
  induction n generalizing base ps with
  | zero =>
    simp only [State.readShares, Except.ok.injEq, Nat.not_lt_zero, false_imp_iff, implies_true, and_true]
    exact eq_comm.trans List.length_eq_zero_iff.symm
  | succ n ih =>
    simp only [State.readShares, bind_eq_ok, State.readElem_eq_ok, ih, pure_eq_ok, Except.ok.injEq]
    constructor
    · rintro ⟨x, hx, y, hy, ws, ⟨hl, hw⟩, rfl⟩
      refine ⟨by simp [hl], fun i hi => ?_⟩
      rcases i with _ | i
      · simpa using ⟨hx, hy⟩
      · rw [show base + 2 * (i + 1) = base + 2 + 2 * i by omega]
        simpa using hw i (by omega)
    · rintro ⟨hl, h⟩
      rcases ps with _ | ⟨⟨x, y⟩, ws⟩
      · simp at hl
      · have h0 := h 0 (by omega)
        simp only [Nat.mul_zero, Nat.add_zero, List.map_cons, List.getElem?_cons_zero] at h0
        refine ⟨x, h0.1, y, h0.2, ws, ⟨by simpa using hl, fun i hi => ?_⟩, rfl⟩
        have h1 := h (i + 1) (by omega)
        rw [show base + 2 * (i + 1) = base + 2 + 2 * i by omega] at h1
        simpa using h1

/-! The response word (rule R81). -/

@[simp] theorem Response.word_code (r : Response) : r.word.extractLsb' 64 8 = r.code :=
  BitVec.extractLsb'_append_eq_left

@[simp] theorem Response.word_data (r : Response) : r.word.extractLsb' 0 64 = r.data :=
  BitVec.extractLsb'_append_eq_right

/-- Two responses with the same word are the same response. -/
theorem Response.word_injective : Function.Injective Response.word := by
  rintro ⟨c, d⟩ ⟨c', d'⟩ h
  have hc := congrArg (BitVec.extractLsb' 64 8) h
  have hd := congrArg (BitVec.extractLsb' 0 64) h
  simp only [Response.word_code, Response.word_data] at hc hd
  rw [hc, hd]

/-! How a command ends. -/

@[simp] theorem commit_ok (i : Instr) (s t : State) (data : Limb) : commit i s (.ok (t, data)) = .next (t.respond data) := rfl

@[simp] theorem commit_error (i : Instr) (s : State) (k : ErrorKind) :
    commit i s (.error k) = .next (s.fail (opcodeOf i) k) := rfl

/-- A command completes with its effect, or fails and changes only the error record (rule R280). -/
theorem commit_eq_next {i : Instr} {s u : State} {r : Except ErrorKind (State × Limb)} :
    commit i s r = .next u ↔
      (∃ t data, r = .ok (t, data) ∧ u = t.respond data) ∨ (∃ k, r = .error k ∧ u = s.fail (opcodeOf i) k) := by
  rcases r with k | ⟨t, data⟩ <;> simp [eq_comm]

/-- Everything `E[d] <- f(E[a])` can do when it completes. -/
theorem unaryElem_eq_ok {rd rs1 : Reg} {s t : State} {f : Shape → Nat → Except ErrorKind Nat} {data : Limb} :
    unaryElem rd rs1 s f = .ok (t, data) ↔
      ∃ sh x r, s.shape = some sh ∧ rd.toNat < s.cfg.nreg ∧ rs1.toNat < s.cfg.nreg ∧ s.elem rs1.toNat = some x ∧
        f sh x = .ok r ∧ t = s.setElem rd.toNat r ∧ data = 0 := by
  simp only [unaryElem, bind_eq_ok, State.needShape_eq_ok, State.checkRegs_eq_ok, State.readElem_eq_ok, pure_eq_ok,
    Except.ok.injEq, Prod.mk.injEq, List.mem_cons, List.not_mem_nil, or_false, forall_eq_or_imp, forall_eq]
  constructor
  · rintro ⟨sh, h1, -, ⟨h2, h3⟩, x, h4, r, h5, rfl, rfl⟩
    exact ⟨sh, x, r, h1, h2, h3, h4, h5, rfl, rfl⟩
  · rintro ⟨sh, x, r, h1, h2, h3, h4, h5, rfl, rfl⟩
    exact ⟨sh, h1, (), ⟨h2, h3⟩, x, h4, r, h5, rfl, rfl⟩

/-- Everything `E[d] <- f(E[a], E[b])` can do when it completes. -/
theorem binaryElem_eq_ok {rd rs1 rs2 : Reg} {s t : State} {f : Shape → Nat → Nat → Except ErrorKind Nat} {data : Limb} :
    binaryElem rd rs1 rs2 s f = .ok (t, data) ↔
      ∃ sh x y r, s.shape = some sh ∧ rd.toNat < s.cfg.nreg ∧ rs1.toNat < s.cfg.nreg ∧ rs2.toNat < s.cfg.nreg ∧
        s.elem rs1.toNat = some x ∧ s.elem rs2.toNat = some y ∧ f sh x y = .ok r ∧ t = s.setElem rd.toNat r ∧
        data = 0 := by
  simp only [binaryElem, bind_eq_ok, State.needShape_eq_ok, State.checkRegs_eq_ok, State.readElem_eq_ok, pure_eq_ok,
    Except.ok.injEq, Prod.mk.injEq, List.mem_cons, List.not_mem_nil, or_false, forall_eq_or_imp, forall_eq]
  constructor
  · rintro ⟨sh, h1, -, ⟨h2, h3, h3'⟩, x, h4, y, h4', r, h5, rfl, rfl⟩
    exact ⟨sh, x, y, r, h1, h2, h3, h3', h4, h4', h5, rfl, rfl⟩
  · rintro ⟨sh, x, y, r, h1, h2, h3, h3', h4, h4', h5, rfl, rfl⟩
    exact ⟨sh, h1, (), ⟨h2, h3, h3'⟩, x, h4, y, h4', r, h5, rfl, rfl⟩

/-! The reducer. -/

/-- A returned value fits the register and is one or two folds of the argument (rule R153). -/
theorem Shape.reduceSmall_eq_ok {sh : Shape} {v r : Nat} :
    sh.reduceSmall v = .ok r ↔
      r < 2 ^ sh.width ∧ (r = sh.fold v ∨ 2 ^ sh.width ≤ sh.fold v ∧ r = sh.fold (sh.fold v)) := by
  unfold Shape.reduceSmall
  split
  · rename_i h
    simp only [Except.ok.injEq]
    constructor
    · rintro rfl; exact ⟨h, .inl rfl⟩
    · rintro ⟨-, rfl | ⟨h', -⟩⟩
      · rfl
      · omega
  · rename_i h
    split
    · rename_i h'
      simp only [Except.ok.injEq]
      constructor
      · rintro rfl; exact ⟨h', .inr ⟨by omega, rfl⟩⟩
      · rintro ⟨hr, rfl | ⟨-, rfl⟩⟩
        · omega
        · rfl
    · rename_i h'
      simp only [reduceCtorEq, false_iff, not_and, not_or]
      intro hr
      exact ⟨by rintro rfl; omega, by rintro - rfl; omega⟩

/-- The only error of the reducer is `ResultOverflow` (rule R153). -/
theorem Shape.reduceSmall_eq_error {sh : Shape} {v : Nat} {k : ErrorKind} :
    sh.reduceSmall v = .error k ↔
      2 ^ sh.width ≤ sh.fold v ∧ 2 ^ sh.width ≤ sh.fold (sh.fold v) ∧ k = .resultOverflow := by
  unfold Shape.reduceSmall
  split
  · simp; omega
  · split
    · simp; omega
    · simp only [Except.error.injEq]
      constructor
      · rintro rfl; exact ⟨by omega, by omega, rfl⟩
      · rintro ⟨-, -, rfl⟩; rfl

end Sys2Proof.Machine
end

