-- ==== Sys2Proof/Laws/Exec.lean ====
section
/-! SUPPORT. What a command can do at all: one inversion lemma over all commands, for the statements about every command. -/

namespace Sys2Proof.Machine

/-- `i` is one of the three commands whose response carries data (rule R36). -/
def Reads (i : Instr) : Prop := (∃ c, i = .rdcsr c) ∨ (∃ a k, i = .getlimb a k) ∨ ∃ a, i = .bufrd a

/-- `i` is one of the two commands that write `BUF` (rule R51). -/
def Stores (i : Instr) : Prop := (∃ a l q, i = .storebe a l q) ∨ ∃ b q, i = .bufwr b q

/-- The effects a command that completes can have on the state, with its response data: none (perhaps with data read),
the error record cleared, a shape installed, bytes of `BUF` written, or the destination register written. -/
inductive Effect (i : Instr) (s : State) : State → Limb → Prop where
  | quiet : Effect i s s 0
  | read (data : Limb) (h : Reads i) : Effect i s s data
  | clear (h : i = .clrerr) : Effect i s s.clearErr 0
  | install (bits : Imm32) (word : Imm64) (sh : Shape) (hi : i = .derive bits word)
      (h : derive s.cfg bits word = .ok sh) : Effect i s (s.install sh) 0
  | store (addr : Nat) (bytes : List Byte) (hi : Stores i) (h : addr + bytes.length ≤ s.cfg.bufsize) :
      Effect i s (s.storeBytes addr bytes) 0
  | write (sh : Shape) (v : Nat) (hsh : s.shape = some sh) (hd : (fieldsOf i).rd.toNat < s.cfg.nreg)
      (hv : sh.Derived s.cfg → s.ElemsOk → v < 2 ^ sh.width) : Effect i s (s.setElem (fieldsOf i).rd.toNat v) 0

/-! The functions on values stay inside the register. -/

theorem Shape.Derived.eq {cfg : Config} {sh : Shape} (h : sh.Derived cfg) : sh = shapeOf sh.bits sh.word := by
  unfold Shape.Derived derive at h
  split at h
  · cases h
  · split at h
    · cases h
    · split at h
      · cases h
      · simpa using h.symm

/-- A register of an accepted shape holds a whole limb, and every byte `LOADBE` may read (rules R102, R123). -/
theorem Shape.Derived.width_bounds {cfg : Config} {sh : Shape} (h : sh.Derived cfg) :
    64 ≤ sh.width ∧ 8 * sh.bytecount ≤ sh.width := by
  rw [h.eq]
  simp only [Shape.width, shapeOf, ceilDiv]
  omega

theorem State.elem_lt {s : State} {sh : Shape} {i v : Nat} (hs : s.ElemsOk) (hsh : s.shape = some sh)
    (h : s.elem i = some v) : v < 2 ^ sh.width := by
  have h2 := hs.2
  rw [hsh] at h2
  refine h2 (some v) ?_ v rfl
  rw [State.elem, List.getD_eq_getElem?_getD] at h
  cases hi : s.e[i]? with
  | none => rw [hi] at h; cases h
  | some c => rw [hi] at h; rw [← show c = some v from h]; exact List.mem_of_getElem? hi

theorem Shape.reduceSmall_lt {sh : Shape} {v r : Nat} (h : sh.reduceSmall v = .ok r) : r < 2 ^ sh.width :=
  (Shape.reduceSmall_eq_ok.mp h).1

theorem Shape.mul_lt {sh : Shape} {x y r : Nat} (h : sh.mul x y = .ok r) : r < 2 ^ sh.width := Shape.reduceSmall_lt h

theorem Shape.sqr_lt {sh : Shape} {x r : Nat} (h : sh.sqr x = .ok r) : r < 2 ^ sh.width := Shape.reduceSmall_lt h

theorem Shape.add_lt {sh : Shape} {x y r : Nat} (h : sh.add x y = .ok r) : r < 2 ^ sh.width := Shape.reduceSmall_lt h

theorem Shape.sub_lt {sh : Shape} {x y r : Nat} (h : sh.sub x y = .ok r) : r < 2 ^ sh.width := by
  unfold Shape.sub at h
  split at h
  · cases h
  · exact Shape.reduceSmall_lt h

theorem Shape.sqrN_lt {sh : Shape} {x k r : Nat} (hx : x < 2 ^ sh.width) (h : sh.sqrN x k = .ok r) : r < 2 ^ sh.width := by
  induction k generalizing x with
  | zero => cases h; exact hx
  | succ k ih =>
    obtain ⟨t, h1, h2⟩ := bind_eq_ok.mp h
    exact ih (Shape.sqr_lt h1) h2

theorem Shape.fred_le (sh : Shape) (x : Nat) : sh.fred x ≤ x := by
  unfold Shape.fred
  split <;> omega

theorem Shape.inv_lt {sh : Shape} {x r : Nat} (h : sh.inv x = .ok r) : r < 2 ^ sh.width := by
  simp only [Shape.inv, bind_eq_ok] at h
  obtain ⟨_, _, _, _, _, _, h⟩ := h
  exact Shape.mul_lt h

theorem Shape.splitLoop_lt {sh : Shape} {x : Nat} {cs : List Nat} {xp y r : Nat} (hy : y < 2 ^ sh.width)
    (h : sh.splitLoop x cs xp y = .ok r) : r < 2 ^ sh.width := by
  induction cs generalizing xp y with
  | nil => cases h; exact hy
  | cons c cs ih =>
    simp only [Shape.splitLoop, bind_eq_ok] at h
    obtain ⟨xp', _, t, _, y', h1, h2⟩ := h
    exact ih (Shape.add_lt h1) h2

theorem Shape.split_lt {sh : Shape} {c0 x r : Nat} {cs : List Nat} (hc : c0 < 2 ^ sh.width)
    (h : sh.split c0 cs x = .ok r) : r < 2 ^ sh.width := by
  simp only [Shape.split, bind_eq_ok, pure_eq_ok, Except.ok.injEq] at h
  obtain ⟨y, h1, rfl⟩ := h
  exact Nat.lt_of_le_of_lt (sh.fred_le y) (Shape.splitLoop_lt hc h1)

theorem Shape.join_lt {sh : Shape} {shares : List (Nat × Nat)} {r : Nat} (h : sh.join shares = .ok r) :
    r < 2 ^ sh.width := by
  simp only [Shape.join, bind_eq_ok, pure_eq_ok, Except.ok.injEq] at h
  obtain ⟨_, _, _, _, _, _, _, _, _, _, _, _, y, h1, rfl⟩ := h
  exact Nat.lt_of_le_of_lt (sh.fred_le y) (Shape.mul_lt h1)

/-- The number a byte string of length `k` spells is below `256^k` (rule R52). -/
theorem beValue_lt (bytes : List Byte) : beValue bytes < 2 ^ (8 * bytes.length) := by
  have key : ∀ (bs : List Byte) (acc k : Nat), acc < 2 ^ (8 * k) →
      bs.foldl (fun acc b => 256 * acc + b.toNat) acc < 2 ^ (8 * (k + bs.length)) := by
    intro bs
    induction bs with
    | nil => intro acc k h; exact h
    | cons b bs ih =>
      intro acc k h
      have hb := b.isLt
      have := ih (256 * acc + b.toNat) (k + 1) (by rw [show 8 * (k + 1) = 8 * k + 8 by omega, Nat.pow_add]; omega)
      rwa [show k + 1 + bs.length = k + (bs.length + 1) by omega] at this
  simpa [beValue] using key bytes 0 0 (by simp)

/-! The inversion. -/

theorem unaryElem_effect {i : Instr} {rd rs1 : Reg} {s t : State} {f : Shape → Nat → Except ErrorKind Nat} {data : Limb}
    (hrd : (fieldsOf i).rd = rd)
    (hf : ∀ sh x r, x < 2 ^ sh.width → f sh x = .ok r → r < 2 ^ sh.width)
    (h : unaryElem rd rs1 s f = .ok (t, data)) : Effect i s t data := by
  obtain ⟨sh, x, r, h1, h2, h3, h4, h5, rfl, rfl⟩ := unaryElem_eq_ok.mp h
  subst hrd
  exact .write sh r h1 h2 fun _ hs => hf sh x r (State.elem_lt hs h1 h4) h5

theorem binaryElem_effect {i : Instr} {rd rs1 rs2 : Reg} {s t : State} {f : Shape → Nat → Nat → Except ErrorKind Nat}
    {data : Limb} (hrd : (fieldsOf i).rd = rd) (hf : ∀ sh x y r, f sh x y = .ok r → r < 2 ^ sh.width)
    (h : binaryElem rd rs1 rs2 s f = .ok (t, data)) : Effect i s t data := by
  obtain ⟨sh, x, y, r, h1, h2, h3, h3', h4, h4', h5, rfl, rfl⟩ := binaryElem_eq_ok.mp h
  subst hrd
  exact .write sh r h1 h2 fun _ _ => hf sh x y r h5

/-- Everything a command can do: it fails with an error kind and changes only the error record, or it completes with one
of the effects of `Effect` (rule R280). -/
theorem exec_cases (i : Instr) (s : State) :
    (∃ k, exec i s = .next (s.fail (opcodeOf i) k)) ∨
      ∃ t data, exec i s = .next (t.respond data) ∧ Effect i s t data := by
  have key : ∃ r, exec i s = commit i s r ∧ ∀ t data, r = .ok (t, data) → Effect i s t data := by
    cases i with
    | nop => exact ⟨.ok (s, 0), rfl, by rintro t data ⟨⟩; exact .quiet⟩
    | clrerr => exact ⟨.ok (s.clearErr, 0), rfl, by rintro t data ⟨⟩; exact .clear rfl⟩
    | derive bits word =>
      refine ⟨_, rfl, fun t data h => ?_⟩
      simp only [bind_eq_ok, pure_eq_ok, Except.ok.injEq, Prod.mk.injEq] at h
      obtain ⟨sh, h1, rfl, rfl⟩ := h
      exact .install bits word sh rfl h1
    | rdcsr c =>
      refine ⟨_, rfl, fun t data h => ?_⟩
      split at h
      · cases h
      · simp only [bind_eq_ok, pure_eq_ok, Except.ok.injEq, Prod.mk.injEq] at h
        obtain ⟨v, h1, rfl, rfl⟩ := h
        exact .read _ (.inl ⟨c, rfl⟩)
    | copy d a => exact ⟨_, rfl, fun t data => unaryElem_effect rfl (by rintro sh x r h ⟨⟩; exact h)⟩
    | setword d v =>
      refine ⟨_, rfl, fun t data h => ?_⟩
      simp only [bind_eq_ok, pure_eq_ok, Except.ok.injEq, Prod.mk.injEq, State.needShape_eq_ok,
        State.checkRegs_eq_ok] at h
      obtain ⟨sh, h1, _, h2, rfl, rfl⟩ := h
      refine .write sh _ h1 (h2 d (by simp)) fun hd _ => ?_
      exact Nat.lt_of_lt_of_le v.isLt (Nat.pow_le_pow_right (by omega) hd.width_bounds.1)
    | loadbe d l a =>
      refine ⟨_, rfl, fun t data h => ?_⟩
      simp only [bind_eq_ok, pure_eq_ok, Except.ok.injEq, Prod.mk.injEq, State.needShape_eq_ok,
        State.checkRegs_eq_ok, require_eq_ok, State.checkRange_eq_ok, decide_eq_true_eq] at h
      obtain ⟨sh, h1, _, h2, _, h3, _, h4, rfl, rfl⟩ := h
      refine .write sh _ h1 (h2 d (by simp)) fun hd _ => ?_
      refine Nat.lt_of_lt_of_le (beValue_lt _) (Nat.pow_le_pow_right (by omega) ?_)
      rw [Memory.length_readBytes]
      have := hd.width_bounds.2
      omega
    | storebe a l q =>
      refine ⟨_, rfl, fun t data h => ?_⟩
      simp only [bind_eq_ok, pure_eq_ok, Except.ok.injEq, Prod.mk.injEq, State.needShape_eq_ok,
        State.checkRegs_eq_ok, require_eq_ok, State.checkRange_eq_ok, decide_eq_true_eq, State.readElem_eq_ok] at h
      obtain ⟨sh, h1, _, h2, v, h3, _, h4, _, h5, _, h6, rfl, rfl⟩ := h
      exact .store _ _ (.inl ⟨a, l, q, rfl⟩) (by simpa [beBytes] using h5)
    | getlimb a k =>
      refine ⟨_, rfl, fun t data h => ?_⟩
      simp only [bind_eq_ok, pure_eq_ok, Except.ok.injEq, Prod.mk.injEq] at h
      obtain ⟨_, _, _, _, _, _, _, _, rfl, rfl⟩ := h
      exact .read _ (.inr (.inl ⟨a, k, rfl⟩))
    | bufwr b q =>
      refine ⟨_, rfl, fun t data h => ?_⟩
      simp only [bind_eq_ok, pure_eq_ok, Except.ok.injEq, Prod.mk.injEq, require_eq_ok, decide_eq_true_eq] at h
      obtain ⟨_, h1, _, h2, rfl, rfl⟩ := h
      exact .store _ _ (.inr ⟨b, q, rfl⟩) (by simpa using h2)
    | bufrd q =>
      refine ⟨_, rfl, fun t data h => ?_⟩
      simp only [bind_eq_ok, pure_eq_ok, Except.ok.injEq, Prod.mk.injEq] at h
      obtain ⟨_, _, rfl, rfl⟩ := h
      exact .read _ (.inr (.inr ⟨q, rfl⟩))
    | add d a b => exact ⟨_, rfl, fun t data => binaryElem_effect rfl fun _ _ _ _ => Shape.add_lt⟩
    | sub d a b => exact ⟨_, rfl, fun t data => binaryElem_effect rfl fun _ _ _ _ => Shape.sub_lt⟩
    | mul d a b => exact ⟨_, rfl, fun t data => binaryElem_effect rfl fun _ _ _ _ => Shape.mul_lt⟩
    | sqr d a => exact ⟨_, rfl, fun t data => unaryElem_effect rfl fun _ _ _ _ => Shape.sqr_lt⟩
    | sqrn d a k => exact ⟨_, rfl, fun t data => unaryElem_effect rfl fun _ _ _ => Shape.sqrN_lt⟩
    | fred d a =>
      refine ⟨_, rfl, fun t data => unaryElem_effect rfl ?_⟩
      rintro sh x r h ⟨⟩
      exact Nat.lt_of_le_of_lt (sh.fred_le x) h
    | reds d a q => exact ⟨_, rfl, fun t data => unaryElem_effect rfl fun _ _ _ _ => Shape.reduceSmall_lt⟩
    | redl d a b => exact ⟨_, rfl, fun t data => binaryElem_effect rfl fun _ _ _ _ => Shape.reduceSmall_lt⟩
    | inv d a =>
      refine ⟨_, rfl, fun t data h => ?_⟩
      simp only [bind_eq_ok] at h
      obtain ⟨_, _, _, _, h⟩ := h
      exact unaryElem_effect rfl (fun _ _ _ _ => Shape.inv_lt) h
    | split d a b n =>
      refine ⟨_, rfl, fun t data h => ?_⟩
      simp only [bind_eq_ok, pure_eq_ok, Except.ok.injEq, Prod.mk.injEq, State.needShape_eq_ok,
        State.checkRegs_eq_ok, State.readElem_eq_ok] at h
      obtain ⟨sh, h1, _, _, _, h2, _, _, c0, h3, _, _, _, _, y, h4, rfl, rfl⟩ := h
      exact .write sh _ h1 (h2 d (by simp)) fun _ hs => Shape.split_lt (State.elem_lt hs h1 h3) h4
    | join d a n =>
      refine ⟨_, rfl, fun t data h => ?_⟩
      simp only [bind_eq_ok, pure_eq_ok, Except.ok.injEq, Prod.mk.injEq, State.needShape_eq_ok,
        State.checkRegs_eq_ok] at h
      obtain ⟨sh, h1, _, _, _, _, _, h2, _, _, _, _, _, _, y, h3, rfl, rfl⟩ := h
      exact .write sh _ h1 (h2 d (by simp)) fun _ _ => Shape.join_lt h3
  obtain ⟨r, h1, h2⟩ := key
  rcases r with k | ⟨t, data⟩
  · exact .inl ⟨k, h1⟩
  · exact .inr ⟨t, data, h1, h2 t data rfl⟩

end Sys2Proof.Machine
end

