-- ==== Sys2Proof/Laws/PerInstr.lean ====
section
/-! SUPPORT. A family of facts about every command as syntax, one lemma per constructor: the opcode byte of its word is
the opcode of rule R74 (which an error of the command leaves in `ERROP`, rule R280). -/

namespace Sys2Proof.Laws.EncodedOpcode

/-- Bits 127:120 of the command's word are its opcode. -/
def Statement (i : Instr) : Prop := opcodeByte (encode i) = opcodeOf i

theorem nop : Statement .nop := by
  simp [Statement, opcodeByte, encode, fieldsOf, opcodeOf]

theorem derive (bits : Imm32) (word : Imm64) : Statement (.derive bits word) := by
  simp [Statement, opcodeByte, encode, fieldsOf, opcodeOf]

theorem clrerr : Statement .clrerr := by
  simp [Statement, opcodeByte, encode, fieldsOf, opcodeOf]

theorem rdcsr (csr : Imm32) : Statement (.rdcsr csr) := by
  simp [Statement, opcodeByte, encode, fieldsOf, opcodeOf]

theorem copy (rd rs1 : Reg) : Statement (.copy rd rs1) := by
  simp [Statement, opcodeByte, encode, fieldsOf, opcodeOf]

theorem setword (rd : Reg) (value : Imm64) : Statement (.setword rd value) := by
  simp [Statement, opcodeByte, encode, fieldsOf, opcodeOf]

theorem loadbe (rd : Reg) (len : Imm32) (addr : Imm64) : Statement (.loadbe rd len addr) := by
  simp [Statement, opcodeByte, encode, fieldsOf, opcodeOf]

theorem storebe (rs1 : Reg) (outLen : Imm32) (addr : Imm64) : Statement (.storebe rs1 outLen addr) := by
  simp [Statement, opcodeByte, encode, fieldsOf, opcodeOf]

theorem getlimb (rs1 : Reg) (index : Imm32) : Statement (.getlimb rs1 index) := by
  simp [Statement, opcodeByte, encode, fieldsOf, opcodeOf]

theorem bufwr (byte : Imm32) (addr : Imm64) : Statement (.bufwr byte addr) := by
  simp [Statement, opcodeByte, encode, fieldsOf, opcodeOf]

theorem bufrd (addr : Imm64) : Statement (.bufrd addr) := by
  simp [Statement, opcodeByte, encode, fieldsOf, opcodeOf]

theorem add (rd rs1 rs2 : Reg) : Statement (.add rd rs1 rs2) := by
  simp [Statement, opcodeByte, encode, fieldsOf, opcodeOf]

theorem sub (rd rs1 rs2 : Reg) : Statement (.sub rd rs1 rs2) := by
  simp [Statement, opcodeByte, encode, fieldsOf, opcodeOf]

theorem mul (rd rs1 rs2 : Reg) : Statement (.mul rd rs1 rs2) := by
  simp [Statement, opcodeByte, encode, fieldsOf, opcodeOf]

theorem sqr (rd rs1 : Reg) : Statement (.sqr rd rs1) := by
  simp [Statement, opcodeByte, encode, fieldsOf, opcodeOf]

theorem sqrn (rd rs1 : Reg) (k : Imm32) : Statement (.sqrn rd rs1 k) := by
  simp [Statement, opcodeByte, encode, fieldsOf, opcodeOf]

theorem fred (rd rs1 : Reg) : Statement (.fred rd rs1) := by
  simp [Statement, opcodeByte, encode, fieldsOf, opcodeOf]

theorem reds (rd rs1 : Reg) (ovf : Imm64) : Statement (.reds rd rs1 ovf) := by
  simp [Statement, opcodeByte, encode, fieldsOf, opcodeOf]

theorem redl (rd rs1 rs2 : Reg) : Statement (.redl rd rs1 rs2) := by
  simp [Statement, opcodeByte, encode, fieldsOf, opcodeOf]

theorem inv (rd rs1 : Reg) : Statement (.inv rd rs1) := by
  simp [Statement, opcodeByte, encode, fieldsOf, opcodeOf]

theorem split (rd rs1 rs2 : Reg) (parts : Imm32) : Statement (.split rd rs1 rs2 parts) := by
  simp [Statement, opcodeByte, encode, fieldsOf, opcodeOf]

theorem join (rd rs1 : Reg) (parts : Imm32) : Statement (.join rd rs1 parts) := by
  simp [Statement, opcodeByte, encode, fieldsOf, opcodeOf]

end Sys2Proof.Laws.EncodedOpcode
end

