-- ==== Sys2Proof/Tests/Slice0.lean ====
section
/-! SUPPORT. The model's own tests: words written out in the spec decode to their commands; one step on small states, with
the results the spec's vectors give (the V numbers are those of 95_test_vectors.md and 96_test_vectors_arith.md); and for
every statement with hypotheses, concrete states and operands that meet all of them together. -/

namespace Sys2Proof.Tests

open Sys2Proof Sys2Proof.Machine Sys2Proof.Claim

-- One theorem after the other: each waits for the kernel, and a thread for each would take memory for nothing.
set_option Elab.async false

/-! ## States and observations -/

/-- The reference engine with the shape `sh` in force and the registers `E[0], E[1], ...` holding the listed values. -/
def withRegs (sh : Shape) (regs : List Nat) : State :=
  { State.reset with shape := some sh, e := regs.map some ++ List.replicate (64 - regs.length) none }

/-- `DERIVE 4, 3`: `p = 29`, `T = 32`, the shape of SHARE's scenario. -/
abbrev shape29 : Shape := shapeOf 4 3

/-- `DERIVE 4, 15`: `p = 17`, not regular, no inverter. -/
abbrev shape17 : Shape := shapeOf 4 15

/-- `DERIVE 63, 59`: no spare bit in the top limb. -/
abbrev shape64 : Shape := shapeOf 63 59

/-- What an outcome shows: the last response and one register. -/
def seen (o : Out) (i : Nat) : Option (Response × Option Nat) :=
  match o with
  | .next t => t.responses.head?.map (fun r => (r, t.elem i))
  | .fault _ => none
  | .refused _ => none

/-- What an outcome shows of the error record: the last response, `ERR` and `ERROP`. -/
def record (o : Out) : Option (Response × Byte × Byte) :=
  match o with
  | .next t => t.responses.head?.map (fun r => (r, t.err, t.errop))
  | .fault _ => none
  | .refused _ => none

/-- One byte of `BUF` in the next state. -/
def byteAfter (o : Out) (a : Nat) : Option Byte :=
  match o with
  | .next t => some (t.buf.read a)
  | .fault _ => none
  | .refused _ => none

/-! ## Decoding: one word for every command, and the illegal ones (95_test_vectors.md section 3.1) -/

theorem test_decode_nop : decode 0x00000000000000000000000000000000 = .ok .nop := by decide
theorem test_decode_derive : decode 0x01000000000000800000000000000019 = .ok (.derive 128 25) := by decide
theorem test_decode_clrerr : decode 0x02000000000000000000000000000000 = .ok .clrerr := by decide
theorem test_decode_rdcsr : decode 0x03000000000000160000000000000000 = .ok (.rdcsr 0x16) := by decide
theorem test_decode_copy : decode 0x10020100000000000000000000000000 = .ok (.copy 2 1) := by decide
theorem test_decode_setword : decode 0x113F000000000000FFFFFFFFFFFFFFFF = .ok (.setword 63 0xFFFFFFFFFFFFFFFF) := by decide
theorem test_decode_loadbe : decode 0x12070000000000110000000000000100 = .ok (.loadbe 7 17 0x100) := by decide
theorem test_decode_storebe : decode 0x13000700000000210000000000000200 = .ok (.storebe 7 33 0x200) := by decide
theorem test_decode_getlimb : decode 0x14000900000000040000000000000000 = .ok (.getlimb 9 4) := by decide
theorem test_decode_bufwr : decode 0x18000000000000FF0000000000000FFF = .ok (.bufwr 0xFF 4095) := by decide
theorem test_decode_bufrd : decode 0x19000000000000000000000000000FFF = .ok (.bufrd 4095) := by decide
theorem test_decode_add : decode 0x20030102000000000000000000000000 = .ok (.add 3 1 2) := by decide
theorem test_decode_sub : decode 0x21030102000000000000000000000000 = .ok (.sub 3 1 2) := by decide
theorem test_decode_mul : decode 0x220A0B0C000000000000000000000000 = .ok (.mul 10 11 12) := by decide
theorem test_decode_sqr : decode 0x23010100000000000000000000000000 = .ok (.sqr 1 1) := by decide
theorem test_decode_sqrn : decode 0x240201000000007C0000000000000000 = .ok (.sqrn 2 1 124) := by decide
theorem test_decode_fred : decode 0x25030300000000000000000000000000 = .ok (.fred 3 3) := by decide
theorem test_decode_reds : decode 0x28020100000000000000000000000001 = .ok (.reds 2 1 1) := by decide
theorem test_decode_redl : decode 0x29030102000000000000000000000000 = .ok (.redl 3 1 2) := by decide
theorem test_decode_inv : decode 0x30020100000000000000000000000000 = .ok (.inv 2 1) := by decide
theorem test_decode_split : decode 0x40050004000000020000000000000000 = .ok (.split 5 0 4 2) := by decide
theorem test_decode_join : decode 0x41080000000000020000000000000000 = .ok (.join 8 0 2) := by decide

/-- V1 to V3: reserved opcodes. -/
theorem test_decode_reserved :
    decode 0x04000000000000000000000000000000 = .error (.reservedOpcode 0x04) ∧
    decode 0xFF000000000000000000000000000000 = .error (.reservedOpcode 0xFF) ∧
    decode 0x26010100000000000000000000000000 = .error (.reservedOpcode 0x26) := by decide

/-- V4, V6, V11, V14: a field the format does not use is not zero. -/
theorem test_decode_unused_field :
    decode 0x00010000000000000000000000000000 = .error (.unusedField 0x00) ∧
    decode 0x20030102000000000000000000000001 = .error (.unusedField 0x20) ∧
    decode 0x14010100000000000000000000000000 = .error (.unusedField 0x14) ∧
    decode 0x41080001000000020000000000000000 = .error (.unusedField 0x41) := by decide

/-- V10: `BUFWR` with bit 8 of `imm32` set. -/
theorem test_decode_byte_too_wide :
    decode 0x18000000000001000000000000000000 = .error (.byteTooWide 0x18) := by decide

/-- The one check of `wellFormed`: a byte of nine bits is refused, the widest byte is not. -/
theorem test_wellFormed_bufwr : wellFormed (.bufwr 256 0) = false ∧ wellFormed (.bufwr 255 0) = true := by decide

/-- The host's view of a word: the table's bits, and the first command after reset. -/
theorem test_decodeTableWord :
    decodeTableWord 128 0x30020100000000000000000000000000 = some (.inv 2 1) ∧
    decodeTableWord 128 0x23020101000000000000000000000000 = none := by decide

/-! ## One step per command -/

/-- V44. -/
theorem test_nop : seen (step (State.reset.withFetchWord 128 0)) 0 = some (⟨0, 0⟩, none) := by decide

/-- V15, V26: an accepted and a refused pair. -/
theorem test_derive :
    seen (step (State.reset.withFetchWord 128 0x01000000000000040000000000000003)) 0 = some (⟨0, 0⟩, none) ∧
    record (exec (.derive 64 49) { State.reset with cfg := ⟨1, 64, 4096, 16⟩ }) = some (⟨1, 0⟩, 1, 0x01) := by
  decide +kernel

/-- The row of `(128, 25)` in the tables of 95_test_vectors.md section 2. -/
theorem test_shape_constants :
    derive Config.reference 128 25 = .ok
      { bits := 128, word := 25, modbits := 129, limbcount := 3, bytecount := 17, topshift := 1, topmask := 1,
        shiftcomp := 63, ls := 5, wlow := 5, m := 124, invOk := true, topw1 := true, chainlen := 6,
        p := [0xFFFFFFFFFFFFFFE7, 0xFFFFFFFFFFFFFFFF, 1],
        chain := [.two, .three, .five, .one, .two, .two] } := by decide +kernel

/-- `CLRERR` after the failed `SUB` of rule R111. -/
theorem test_clrerr :
    record (exec .clrerr { State.reset with err := 12, errop := 0x21 }) = some (⟨0, 0⟩, 0, 0) := by decide

/-- V46, V59, V64: `STATUS`, `P[0]` and the last chain entry of `(64, 49)`; V40: no such CSR. -/
theorem test_rdcsr :
    seen (exec (.rdcsr 0x00) (withRegs (shapeOf 64 49) [])) 0 = some (⟨0, 7⟩, none) ∧
    seen (exec (.rdcsr 0x20) (withRegs (shapeOf 64 49) [])) 0 = some (⟨0, 0xFFFFFFFFFFFFFFCF⟩, none) ∧
    seen (exec (.rdcsr 0x47) (withRegs (shapeOf 64 49) [])) 0 = some (⟨0, 1⟩, none) ∧
    record (exec (.rdcsr 0x03) State.reset) = some (⟨11, 0⟩, 11, 0x03) := by decide +kernel

/-- Rule R121's example, and `Uninit` for a source never written. -/
theorem test_copy :
    seen (exec (.copy 2 1) (withRegs shape29 [0, 31])) 2 = some (⟨0, 0⟩, some 31) ∧
    record (exec (.copy 2 1) (withRegs shape29 [])) = some (⟨8, 0⟩, 8, 0x10) := by decide +kernel

/-- The widest value, far above `p`, is stored as given (rule R122). -/
theorem test_setword :
    seen (exec (.setword 63 0xFFFFFFFFFFFFFFFF) (withRegs shape29 [])) 63 =
      some (⟨0, 0⟩, some 0xFFFFFFFFFFFFFFFF) := by decide +kernel

/-- Two bytes, the first the most significant (rule R123), under `(12, 1)`. -/
theorem test_loadbe :
    seen (exec (.loadbe 1 2 16) { withRegs (shapeOf 12 1) [] with buf := [(16, 0x0D), (17, 0x01)] }) 1 =
      some (⟨0, 0⟩, some 0x0D01) := by decide +kernel

/-- The example of rule R124, and the `EncodeOverflow` of its corner cases. -/
theorem test_storebe :
    byteAfter (exec (.storebe 2 2 32) (withRegs shape29 [0, 0, 7])) 33 = some 7 ∧
    byteAfter (exec (.storebe 2 2 32) (withRegs shape29 [0, 0, 7])) 32 = some 0 ∧
    record (exec (.storebe 0 1 0) (withRegs (shapeOf 7 5) [260])) = some (⟨14, 0⟩, 14, 0x13) := by decide +kernel

/-- The example of rule R125. -/
theorem test_getlimb :
    seen (exec (.getlimb 0 2) (withRegs (shapeOf 128 25) [2 ^ 129 - 25])) 0 = some (⟨0, 1⟩, some (2 ^ 129 - 25)) ∧
    seen (exec (.getlimb 0 0) (withRegs (shapeOf 128 25) [2 ^ 129 - 25])) 0 =
      some (⟨0, 0xFFFFFFFFFFFFFFE7⟩, some (2 ^ 129 - 25)) := by decide +kernel

/-- The example of rule R126, and the first address outside `BUF`. -/
theorem test_bufwr :
    byteAfter (exec (.bufwr 0x0D 16) State.reset) 16 = some 0x0D ∧
    record (exec (.bufwr 0x0D 4096) State.reset) = some (⟨10, 0⟩, 10, 0x18) := by decide +kernel

/-- The example of rule R127. -/
theorem test_bufrd :
    seen (exec (.bufrd 33) { State.reset with buf := [(33, 7)] }) 0 = some (⟨0, 7⟩, none) := by decide +kernel

/-- V172, V215: the first pass, and the carry-out fold of a full top limb. -/
theorem test_add :
    seen (exec (.add 3 1 2) (withRegs shape29 [0, 28, 28])) 3 = some (⟨0, 0⟩, some 27) ∧
    seen (exec (.add 3 1 2) (withRegs shape64 [0, 0xFFFFFFFFFFFFFFFF, 0xFFFFFFFFFFFFFFFF])) 3 =
      some (⟨0, 0⟩, some 116) := by decide +kernel

/-- V179, V185: operands in order, and the first subtrahend that underflows. -/
theorem test_sub :
    seen (exec (.sub 3 1 2) (withRegs shape29 [0, 3, 5])) 3 = some (⟨0, 0⟩, some 27) ∧
    record (exec (.sub 3 1 2) (withRegs shape29 [0, 0, 30])) = some (⟨12, 0⟩, 12, 0x21) := by decide +kernel

/-- V190, V196: a product of canonical values, and one far outside the bounds. -/
theorem test_mul :
    seen (exec (.mul 3 1 2) (withRegs shape29 [0, 28, 28])) 3 = some (⟨0, 0⟩, some 30) ∧
    record (exec (.mul 3 1 2) (withRegs shape29 [0, 0xFFFFFFFFFFFFFFFF, 0xFFFFFFFFFFFFFFFF])) =
      some (⟨13, 0⟩, 13, 0x22) := by decide +kernel

/-- V193. -/
theorem test_sqr : seen (exec (.sqr 3 1) (withRegs shape29 [0, 34])) 3 = some (⟨0, 0⟩, some 25) := by decide +kernel

/-- V200, V202: three squarings, and none. -/
theorem test_sqrn :
    seen (exec (.sqrn 3 1 3) (withRegs shape29 [0, 7])) 3 = some (⟨0, 0⟩, some 7) ∧
    seen (exec (.sqrn 3 1 0) (withRegs shape29 [0, 34])) 3 = some (⟨0, 0⟩, some 34) := by decide +kernel

/-- V206, V210: `p` gives 0; `2p` is reduced once only. -/
theorem test_fred :
    seen (exec (.fred 3 1) (withRegs shape29 [0, 29])) 3 = some (⟨0, 0⟩, some 0) ∧
    seen (exec (.fred 3 1) (withRegs shape29 [0, 58])) 3 = some (⟨0, 0⟩, some 29) := by decide +kernel

/-- The examples of rule R158. -/
theorem test_reds :
    seen (exec (.reds 2 1 0) (withRegs shape29 [0, 63])) 2 = some (⟨0, 0⟩, some 34) ∧
    seen (exec (.reds 2 1 1) (withRegs shape64 [0, 0xFFFFFFFFFFFFFFFF])) 2 = some (⟨0, 0⟩, some 117) := by
  decide +kernel

/-- The example of rule R159, and the halves in their order: `0 + 2^64·1` under `(63, 59)` is 59. -/
theorem test_redl :
    seen (exec (.redl 3 1 2) (withRegs shape29 [0, 784, 0])) 3 = some (⟨0, 0⟩, some 30) ∧
    seen (exec (.redl 3 1 2) (withRegs shape64 [0, 0, 1])) 3 = some (⟨0, 0⟩, some 59) := by decide +kernel

/-- V280, V260: a chain with the factors 2, 5 and 1; a shape without a chain. -/
theorem test_inv :
    seen (exec (.inv 2 1) (withRegs (shapeOf 12 1) [0, 5])) 2 = some (⟨0, 0⟩, some 6553) ∧
    record (exec (.inv 3 1) (withRegs shape17 [0, 1])) = some (⟨1, 0⟩, 1, 0x30) := by decide +kernel

/-- V303, V306: three coefficients at 2; the destination inside the run. -/
theorem test_split :
    seen (exec (.split 5 0 4 3) (withRegs shape29 [7, 2, 5, 0, 2])) 5 = some (⟨0, 0⟩, some 2) ∧
    seen (exec (.split 0 0 4 3) (withRegs shape29 [7, 2, 5, 0, 4])) 0 = some (⟨0, 0⟩, some 8) := by decide +kernel

/-- SHARE's scenario (X1), and the silent zero for a repeated point (rule R257). -/
theorem test_join :
    seen (exec (.join 8 0 2) (withRegs shape29 [3, 13, 5, 17])) 8 = some (⟨0, 0⟩, some 7) ∧
    seen (exec (.join 8 0 2) (withRegs shape29 [3, 13, 3, 13])) 8 = some (⟨0, 0⟩, some 0) := by decide +kernel

/-- V330: `sub(0, 31)` underflows inside `JOIN`. -/
theorem test_join_underflow :
    record (exec (.join 8 0 2) (withRegs shape29 [31, 1, 0, 1])) = some (⟨12, 0⟩, 12, 0x41) := by decide +kernel

/-- Rule R81: the word of a failure and that of the limb `GETLIMB` returns, code in bits 71:64. -/
theorem test_responseWord :
    Response.word ⟨5, 0⟩ = 0x050000000000000000 ∧ Response.word ⟨0, 0xFFFFFFFFFFFFFFE7⟩ = 0x00FFFFFFFFFFFFFFE7 := by decide

/-- A reset event between commands: no shape, no register, the record clear, the new bytes in `BUF` (rules R39, R310). -/
theorem test_reset_event :
    record (step { withRegs shape29 [1, 2] with err := 5, errop := 4, port := [.reset [1, 2]], responses := [⟨5, 0⟩] }) =
      some (⟨5, 0⟩, 0, 0) ∧
    byteAfter (step { withRegs shape29 [1, 2] with port := [.reset [1, 2]] }) 1 = some 2 := by decide +kernel

/-! ## Witnesses: hypotheses of the statements that are met together -/

/-- A condition on the next state, as a test can evaluate it. -/
def holdsNext (o : Out) (p : State → Bool) : Bool :=
  match o with
  | .next t => p t
  | .fault _ => false
  | .refused _ => false

theorem exists_next {o : Out} (p : State → Bool) (h : holdsNext o p = true) : ∃ t, o = .next t ∧ p t = true := by
  cases o with
  | next t => exact ⟨t, rfl, h⟩
  | fault r => cases h
  | refused r => cases h

/-- An outcome that is a next state whose last response is `OK`. -/
theorem exists_ok {o : Out} (h : holdsNext o (fun t => t.responses.head?.map Response.code == some 0) = true) :
    ∃ t, o = .next t ∧ Ok t := by
  obtain ⟨t, h1, h2⟩ := exists_next _ h
  refine ⟨t, h1, ?_⟩
  rcases hr : t.responses with _ | ⟨⟨c, d⟩, rest⟩
  · simp [hr] at h2
  · simp only [hr, List.head?_cons, Option.map_some, beq_iff_eq, Option.some.injEq] at h2
    exact ⟨d, rest, by rw [hr, h2]⟩

/-- A state of these tests meets the invariant when its shape is accepted and its registers fit. -/
theorem withRegs_inv {sh : Shape} {regs : List Nat} (h1 : sh.Derived Config.reference) (h2 : regs.length ≤ 64)
    (h3 : ∀ v ∈ regs, v < 2 ^ sh.width) : (withRegs sh regs).Inv where
  cfg := show Config.reference.Ok by decide
  shape := by intro sh' h; cases h; exact h1
  elems := by
    refine ⟨by simp [withRegs, State.reset, Config.reference]; omega, ?_⟩
    intro c hc v hv
    simp only [withRegs, List.mem_append, List.mem_map, List.mem_replicate] at hc
    rcases hc with ⟨w, hw, rfl⟩ | ⟨_, rfl⟩
    · cases hv; exact h3 v hw
    · cases hv
  buf := ⟨Memory.wf_nil, by simp [withRegs, State.reset]⟩
  record := by simp [State.RecordOk, withRegs, State.reset]

/-- `Ready`, as a test can evaluate it. -/
theorem ready_of {s : State} {sh : Shape} {rs : List Reg} (h1 : s.shape = some sh)
    (h2 : ∀ r ∈ rs, r.toNat < s.cfg.nreg) : Ready s sh rs := ⟨h1, h2⟩

/-- A state that meets the invariant, with a shape in force and registers that are and are not canonical. -/
theorem witness_inv_shape29 : (withRegs shape29 [7, 28, 30, 34, 0, 29]).Inv :=
  withRegs_inv (by decide +kernel) (by decide) (by decide +kernel)

theorem witness_inv_shape17 : (withRegs shape17 [7, 28]).Inv :=
  withRegs_inv (by decide +kernel) (by decide) (by decide +kernel)

/-- DecodeOfEncode, EncodeOfDecode: a legal command with the widest operands the encoding admits, and its word. -/
theorem witness_encoding :
    wellFormed (.bufwr 255 0xFFFFFFFFFFFFFFFF) = true ∧ wellFormed (.split 255 255 255 0xFFFFFFFF) = true ∧
    decode 0x40FFFFFFFFFFFFFF0000000000000000 = .ok (.split 255 255 255 0xFFFFFFFF) := by decide

/-- DecodeAgreesWithOpcodeTable: a row that a word selects, and a word that selects none. -/
theorem witness_opcodeRows :
    (⟨"NOP", 0, 0xFFFFFFFFFFFFFFFFFFFFFFFFFFFFFFFF⟩ : OpcodeRow) ∈ opcodeRows ∧
    ∀ r ∈ opcodeRows, selectsRow 0x18000000000001000000000000000000 r = false := by decide +kernel

/-- IllegalWordsFail: the first and last reserved opcodes; a row's opcode with its lowest or highest forbidden bit set. -/
theorem witness_illegalWords :
    { State.reset with port := [.command 0x04000000000000000000000000000000] }.port =
      .command 0x04000000000000000000000000000000 :: [] ∧
    (∀ r ∈ opcodeRows, (0x04000000000000000000000000000000 : Cmd).extractLsb' 120 8 ≠ r.pattern.extractLsb' 120 8) ∧
    (∀ r ∈ opcodeRows, (0xFF000000000000000000000000000000 : Cmd).extractLsb' 120 8 ≠ r.pattern.extractLsb' 120 8) ∧
    (∃ r ∈ opcodeRows, (0x00000000000000000000000000000001 : Cmd).extractLsb' 120 8 = r.pattern.extractLsb' 120 8 ∧
      (0x00000000000000000000000000000001 : Cmd) &&& r.mask ≠ r.pattern) ∧
    (∃ r ∈ opcodeRows, (0x18000000000001000000000000000000 : Cmd).extractLsb' 120 8 = r.pattern.extractLsb' 120 8 ∧
      (0x18000000000001000000000000000000 : Cmd) &&& r.mask ≠ r.pattern) := by decide +kernel

/-- StepRunsDecodedCommand. -/
theorem witness_stepRuns :
    { State.reset with port := [.command 0x18000000000000FF0000000000000FFF] }.port =
      .command 0x18000000000000FF0000000000000FFF :: [] ∧
    decode 0x18000000000000FF0000000000000FFF = .ok (.bufwr 255 4095) ∧ wellFormed (.bufwr 255 4095) = true := by decide

/-- ResetEventGivesResetState: content beyond a `BUF` of two bytes, and the last address. -/
theorem witness_resetEvent :
    { State.reset with cfg := ⟨9, 64, 2, 16⟩, port := [.reset [0x11, 0x22, 0x33]] }.port =
      .reset [0x11, 0x22, 0x33] :: [] ∧
    1 < (⟨9, 64, 2, 16⟩ : Config).bufsize ∧ ([0x11, 0x22, 0x33] : List Byte)[1]? = some 0x22 := by decide

/-- ResetSatisfiesInvariant: parameters at both ends of their ranges, and a content of `BUF`. -/
theorem witness_resetInv :
    (⟨1, 1, 1, 2⟩ : Config).Ok ∧ (⟨32, 256, 2 ^ 63, 128⟩ : Config).Ok ∧ Memory.wf [(0, 0x11)] ∧
    ∀ c ∈ ([(0, 0x11)] : Memory), c.1 < 1 := by decide +kernel

/-- StepKeepsInvariant: `witness_inv_shape29` with a command on the port, and the step it takes. -/
theorem witness_stepKeeps :
    { withRegs shape29 [7, 28, 30, 34, 0, 29] with port := [.command 0x20030102000000000000000000000000] }.Inv ∧
    ∃ t, step { withRegs shape29 [7, 28, 30, 34, 0, 29] with port := [.command 0x20030102000000000000000000000000] } =
      .next t ∧ decide (t.elem 3 = some 29) = true :=
  ⟨⟨witness_inv_shape29.cfg, witness_inv_shape29.shape, witness_inv_shape29.elems, witness_inv_shape29.buf,
    witness_inv_shape29.record⟩, exists_next _ (by decide +kernel)⟩

/-- CommandEmitsOneResponse, FailureChangesOnlyErrorRecord, OnlyNamedCommandsWriteEachPart: a command that completes with
data, and one that fails; one that changes the shape and the registers, one that changes `BUF`, one that changes a
register, one that runs with the record set. -/
theorem witness_exec :
    (∃ t, exec (.bufrd 0) State.reset = .next t ∧ decide (t.responses = ⟨0, 0xA5⟩ :: State.reset.responses) = true) ∧
    (∃ t, exec (.copy 0 1) State.reset = .next t ∧ decide (t.responses = ⟨6, 0⟩ :: State.reset.responses) = true) ∧
    (∃ t, exec (.derive 4 3) (withRegs shape17 [7]) = .next t ∧
      decide (t.shape ≠ (withRegs shape17 [7]).shape ∧ t.elem 0 ≠ (withRegs shape17 [7]).elem 0) = true) ∧
    (∃ t, exec (.bufwr 1 0) State.reset = .next t ∧ decide (t.buf ≠ State.reset.buf) = true) ∧
    (∃ t, exec (.setword 1 5) (withRegs shape17 [7]) = .next t ∧
      decide (t.elem 1 ≠ (withRegs shape17 [7]).elem 1) = true) ∧
    (∃ t, exec .nop { State.reset with err := 5 } = .next t ∧ decide (t.err ≠ 0) = true) :=
  ⟨exists_next _ (by decide +kernel), exists_next _ (by decide +kernel), exists_next _ (by decide +kernel),
    exists_next _ (by decide +kernel), exists_next _ (by decide +kernel), exists_next _ (by decide +kernel)⟩

/-- NopDoesNothingAndClrerrClearsRecord: an illegal word of each opcode, and a record that `CLRERR` clears. -/
theorem witness_nopClrerr :
    ((0x00000000000000000000000000000001 : Cmd).extractLsb' 120 8 = 0x00 ∧
      (0x00000000000000000000000000000001 : Cmd) ≠ 0) ∧
    ((0x02010000000000000000000000000000 : Cmd).extractLsb' 120 8 = 0x02 ∧
      (0x02010000000000000000000000000000 : Cmd) ≠ 0x02000000000000000000000000000000) ∧
    (∃ t, exec .clrerr { State.reset with err := 12, errop := 0x21 } = .next t ∧ decide (t.err = 0) = true) :=
  ⟨by decide, by decide, exists_next _ (by decide)⟩

/-- DeriveInstallsShapeOrFails: pairs at the ends of the accepted range (V20, V19, V22), and one for each refusal (V17,
V21, V23). -/
theorem witness_derive :
    ((1 : Imm64).toNat % 2 = 1 ∧ (1 : Imm64).toNat < 2 ^ ((0 : Imm32).toNat + 1) ∧
      (0 : Imm32).toNat + 1 ≤ 64 * State.reset.cfg.lmax) ∧
    ((31 : Imm64).toNat % 2 = 1 ∧ (31 : Imm64).toNat < 2 ^ ((4 : Imm32).toNat + 1)) ∧
    (575 : Imm32).toNat + 1 ≤ 64 * State.reset.cfg.lmax ∧ 64 * State.reset.cfg.lmax < (576 : Imm32).toNat + 1 ∧
    (0 : Imm64).toNat % 2 = 0 ∧ 2 ^ ((0 : Imm32).toNat + 1) ≤ (3 : Imm64).toNat := by decide +kernel

/-- ExponentConstants, RunLengthAndInvOk, ChainScheduleReachesRunLength, ShapeValuesFitTheirCsrs, FoldFacts,
ReducerBounds: accepted shapes on both sides of every condition, with `n = 3` the smallest regular shape that must have an inverter, and values for the bounds. -/
theorem witness_shapes :
    derive Config.reference 2 1 = .ok (shapeOf 2 1) ∧ (shapeOf 2 1).Regular ∧ 3 ≤ (shapeOf 2 1).modbits ∧
    (shapeOf 2 1).invOk = true ∧ (shapeOf 2 1).ls ≤ (shapeOf 2 1).modbits ∧
    derive Config.reference 4 15 = .ok shape17 ∧ ¬ shape17.Regular ∧ shape17.invOk = false ∧
    Config.reference.Ok ∧ derive Config.reference 4 3 = .ok shape29 ∧ shape29.Regular ∧
    shape29.top ≤ 32 ∧ shape29.top ≤ shape29.fold 63 ∧ 69 < 2 * shape29.top + 2 * (3 : Imm64).toNat ∧
    1224 < (shape29.top + (3 : Imm64).toNat) ^ 2 ∧ shape29.WeaklyReduced 34 ∧
    shape29.reduceSmall 69 = .ok 11 ∧ shape29.reduceLong 1224 = .ok 6 := by decide +kernel

/-- RdcsrReturnsCsrValue, RdcsrErrors: no shape; a shape in force; the numbers at the ends of the gaps and of the map. -/
theorem witness_rdcsr :
    State.reset.shape = none ∧ (withRegs shape29 []).shape = some shape29 ∧ shape29.Derived State.reset.cfg ∧
    ([3, 7, 0x0C, 0x0F, 0x1C, 0x1F, 0x60, 0xFFFFFFFF] : List Imm32).all (fun k =>
      decide (3 ≤ k.toNat ∧ k.toNat ≤ 7 ∨ 0x0C ≤ k.toNat ∧ k.toNat ≤ 0x0F ∨ 0x1C ≤ k.toNat ∧ k.toNat ≤ 0x1F ∨
        0x60 ≤ k.toNat)) = true ∧
    ([0x10, 0x1B, 0x20, 0x5F] : List Imm32).all (fun k =>
      decide (0x10 ≤ k.toNat ∧ k.toNat ≤ 0x1B ∨ 0x20 ≤ k.toNat ∧ k.toNat ≤ 0x5F)) = true := by decide +kernel

/-- The statements on one or two sources (`COPY`, `SETWORD`, `FRED`, `SQRN`, `REDS`, `REDL`, `ADD`, `SUB`, `MUL`, `SQR`,
`INV`): registers 63, 0 and 3 are in the file; `x` is canonical, `y` weakly reduced; the subtrahend is above and not
above `x + p` (V185, V184); a squaring that fits and, outside the bounds, one that does not (V196). -/
theorem witness_sources :
    Ready (withRegs shape29 [7, 28, 30, 34, 0, 29]) shape29 [63, 0, 3] ∧
    (withRegs shape29 [7, 28, 30, 34, 0, 29]).elem (0 : Reg).toNat = some 7 ∧
    (withRegs shape29 [7, 28, 30, 34, 0, 29]).elem (3 : Reg).toNat = some 34 ∧
    shape29.Regular ∧ shape29.WeaklyReduced 7 ∧ shape29.WeaklyReduced 34 ∧ ¬ shape29.WeaklyReduced 35 ∧
    shape29.invOk = true ∧ 0 + shape29.prime < 30 ∧ 29 ≤ 0 + shape29.prime ∧ 0 + 29 = 0 + shape29.prime ∧
    shape29.reduceLong (7 * 7) = .ok 20 ∧
    shape29.reduceLong (0xFFFFFFFFFFFFFFFF * 0xFFFFFFFFFFFFFFFF) = .error .resultOverflow :=
  ⟨ready_of rfl (by decide), by decide +kernel⟩

/-- SqrEqualsMul, FieldOpsCongruences: the commands answer `OK` with a next state, in a state that meets the invariant
(`witness_inv_shape29`). -/
theorem witness_congruences :
    (∃ t, exec (.add 6 3 1) (withRegs shape29 [7, 28, 30, 34, 0, 29]) = .next t ∧ Ok t) ∧
    (∃ t, exec (.sub 6 3 1) (withRegs shape29 [7, 28, 30, 34, 0, 29]) = .next t ∧ Ok t) ∧
    (∃ t, exec (.sqr 6 3) (withRegs shape29 [7, 28, 30, 34, 0, 29]) = .next t ∧ Ok t) ∧
    (∃ t, exec (.mul 6 3 3) (withRegs shape29 [7, 28, 30, 34, 0, 29]) = .next t ∧ Ok t) ∧
    (∃ t, exec (.sqrn 6 3 2) (withRegs shape29 [7, 28, 30, 34, 0, 29]) = .next t ∧ Ok t) ∧
    (∃ t, exec (.fred 6 3) (withRegs shape29 [7, 28, 30, 34, 0, 29]) = .next t ∧ Ok t) :=
  ⟨exists_ok (by decide +kernel), exists_ok (by decide +kernel), exists_ok (by decide +kernel),
    exists_ok (by decide +kernel), exists_ok (by decide +kernel), exists_ok (by decide +kernel)⟩

/-- AddSubRoundTrip: canonical sources, a destination that is not the second source. -/
theorem witness_roundTrip :
    Ready (withRegs shape29 [7, 28, 30, 34, 0, 29]) shape29 [6, 0, 1] ∧ (6 : Reg) ≠ 1 ∧
    (withRegs shape29 [7, 28, 30, 34, 0, 29]).elem (0 : Reg).toNat = some 7 ∧
    (withRegs shape29 [7, 28, 30, 34, 0, 29]).elem (1 : Reg).toNat = some 28 ∧
    shape29.Canonical 7 ∧ shape29.Canonical 28 ∧ shape29.Regular :=
  ⟨ready_of rfl (by decide), by decide +kernel⟩

/-- ReducerCommandsComplete: the largest values of the two bounds under `(63, 59)`, where an overflow limb is inside. -/
theorem witness_reducerCommands :
    (0xFFFFFFFFFFFFFFFF : Nat) + 2 ^ shape64.width * (1 : Imm64).toNat < 2 * shape64.top + 2 * shape64.word.toNat ∧
    117 + 2 ^ shape64.width * (1 : Imm64).toNat * 2 = 2 * shape64.top + 2 * shape64.word.toNat - 1 ∧
    0xFFFFFFFFFFFFFFFF + 2 ^ shape64.width * 0xFFFFFFFFFFFFFFFF < (shape64.top + shape64.word.toNat) ^ 2 ∧
    shape64.Regular ∧ Ready (withRegs shape64 [0xFFFFFFFFFFFFFFFF]) shape64 [63, 0, 0] :=
  ⟨by decide +kernel, by decide +kernel, by decide +kernel, by decide +kernel, ready_of rfl (by decide)⟩

/-- LoadbeWritesBigEndianValue, LoadbeErrors: the longest load at the last place of `BUF`, and the first operand of each
error. -/
theorem witness_loadbe :
    Ready (withRegs shape29 []) shape29 [63] ∧ (1 : Imm32).toNat ≤ shape29.bytecount ∧
    (4095 : Imm64).toNat + (1 : Imm32).toNat ≤ State.reset.cfg.bufsize ∧
    State.reset.cfg.nreg ≤ (64 : Reg).toNat ∧ shape29.bytecount < (2 : Imm32).toNat ∧
    State.reset.cfg.bufsize < (4096 : Imm64).toNat + (1 : Imm32).toNat :=
  ⟨ready_of rfl (by decide), by decide +kernel⟩

/-- StorebeStoresBigEndianBytes, StorebeErrors, ByteRoundTrip: a store that fits exactly, and the first operand of each
error (V177's unwritten register; the value 260 of rule R124). -/
theorem witness_storebe :
    Ready (withRegs (shapeOf 7 5) [255, 260]) (shapeOf 7 5) [0, 63] ∧
    (withRegs (shapeOf 7 5) [255, 260]).elem (0 : Reg).toNat = some 255 ∧
    (withRegs (shapeOf 7 5) [255, 260]).elem (1 : Reg).toNat = some 260 ∧
    (withRegs (shapeOf 7 5) [255, 260]).elem (2 : Reg).toNat = none ∧
    (1 : Imm32).toNat = (shapeOf 7 5).bytecount ∧ 255 < 2 ^ (8 * (shapeOf 7 5).bytecount) ∧
    2 ^ (8 * (1 : Imm32).toNat) ≤ 260 ∧ (0 : Imm32).toNat < (shapeOf 7 5).bytecount ∧
    (4095 : Imm64).toNat + (1 : Imm32).toNat ≤ State.reset.cfg.bufsize ∧
    State.reset.cfg.bufsize < (4095 : Imm64).toNat + (2 : Imm32).toNat :=
  ⟨ready_of rfl (by decide), by decide +kernel⟩

theorem witness_byteRoundTrip_inv : (withRegs (shapeOf 7 5) [255, 260]).Inv :=
  withRegs_inv (by decide +kernel) (by decide) (by decide +kernel)

/-- GetlimbReturnsLimb, BufwrStoresOneByte, BufrdReturnsByte, OutOfRangeAccessFails: the last limb, byte and address that
exist, and the first that do not. -/
theorem witness_limbsAndBytes :
    (0 : Imm32).toNat < shape29.limbcount ∧ shape29.limbcount ≤ (1 : Imm32).toNat ∧ (255 : Imm32).toNat < 256 ∧
    (4095 : Imm64).toNat < State.reset.cfg.bufsize ∧ State.reset.cfg.bufsize ≤ (4096 : Imm64).toNat ∧
    Ready (withRegs shape29 [7]) shape29 [0] ∧ (withRegs shape29 [7]).elem (0 : Reg).toNat = some 7 :=
  ⟨by decide +kernel, by decide +kernel, by decide, by decide, by decide, ready_of rfl (by decide), by decide +kernel⟩

/-- CommandsNeedShape, RegisterBeyondNregFails, UnwrittenSourceFails, InverterRefusesShapeWithoutChain. -/
theorem witness_checks :
    State.reset.shape = none ∧ opcodeOf (.join 0 0 0) = 0x41 ∧ opcodeOf (.copy 0 0) = 0x10 ∧
    (withRegs shape29 [7]).shape = some shape29 ∧ (withRegs shape29 [7]).cfg.nreg ≤ (64 : Reg).toNat ∧
    shape29.invOk = true ∧ Ready (withRegs shape29 [7]) shape29 [63, 1, 0] ∧
    (withRegs shape29 [7]).elem (1 : Reg).toNat = none ∧ (withRegs shape29 [7]).elem (0 : Reg).toNat = some 7 ∧
    (withRegs shape17 [7, 28]).shape = some shape17 ∧ shape17.invOk = false :=
  ⟨rfl, rfl, rfl, rfl, by decide, by decide +kernel, ready_of rfl (by decide), by decide +kernel, by decide +kernel, rfl,
    by decide +kernel⟩

/-- InvWritesFermatPower, InvOfZeroIsZero, InverseTimesElementIsOne: a prime `p`, a source that is no multiple of it, the
zero source, a destination that is not the source; and an `INV` that answers `OK`. -/
theorem witness_inv :
    shape29.prime.Prime ∧ (6 : Reg) ≠ 3 ∧ ¬ shape29.prime ∣ 34 ∧ shape29.WeaklyReduced 34 ∧
    Ready (withRegs shape29 [7, 28, 30, 34, 0, 29]) shape29 [6, 3] ∧
    (withRegs shape29 [7, 28, 30, 34, 0, 29]).elem (3 : Reg).toNat = some 34 ∧
    (withRegs shape29 [7, 28, 30, 34, 0, 29]).elem (4 : Reg).toNat = some 0 ∧
    ∃ t, exec (.inv 6 3) (withRegs shape29 [7, 28, 30, 34, 0, 29]) = .next t ∧ Ok t :=
  ⟨by rw [show shape29.prime = 29 by decide +kernel]; norm_num, by decide, by decide +kernel, by decide +kernel,
    ready_of rfl (by decide), by decide +kernel, by decide +kernel, exists_ok (by decide +kernel)⟩

/-- The registers of the sharing witnesses: the shares `(3, 13)`, `(5, 17)` of the polynomial `7 + 2x`, the coefficients
7, 2 and the point 3. -/
abbrev sharingState : State := withRegs shape29 [3, 13, 5, 17, 7, 2, 3]

theorem witness_inv_sharing : sharingState.Inv :=
  withRegs_inv (by decide +kernel) (by decide) (by decide +kernel)

/-- SplitEvaluatesPolynomial, SplitCongruence: the two coefficients from register 4 on, at the point in register 6. -/
theorem witness_split :
    Ready sharingState shape29 [63, 6] ∧ shape29.Regular ∧ 2 ≤ (2 : Imm32).toNat ∧
    (4 : Reg).toNat + (2 : Imm32).toNat ≤ sharingState.cfg.nreg ∧
    (∀ i < (2 : Imm32).toNat, sharingState.elem ((4 : Reg).toNat + i) = some ([7, 2].getD i 0) ∧
      shape29.WeaklyReduced ([7, 2].getD i 0)) ∧
    sharingState.elem (6 : Reg).toNat = some 3 ∧ shape29.WeaklyReduced 3 ∧
    ∃ t, exec (.split 63 4 6 2) sharingState = .next t ∧ Ok t :=
  ⟨ready_of rfl (by decide), by decide +kernel, by decide, by decide, by decide +kernel, by decide +kernel,
    by decide +kernel, exists_ok (by decide +kernel)⟩

/-- JoinCompletes, JoinRecoversSecret: the two shares from register 0 on. -/
theorem witness_join :
    Ready sharingState shape29 [63] ∧ shape29.Regular ∧ shape29.invOk = true ∧ shape29.prime.Prime ∧
    2 ≤ (2 : Imm32).toNat ∧ (2 : Imm32).toNat ≤ sharingState.cfg.partsMax ∧
    (0 : Reg).toNat + 2 * (2 : Imm32).toNat ≤ sharingState.cfg.nreg ∧
    (∀ i < (2 : Imm32).toNat, sharingState.elem ((0 : Reg).toNat + 2 * i) = some ([3, 5].getD i 0) ∧
      sharingState.elem ((0 : Reg).toNat + 2 * i + 1) = some ([13, 17].getD i 0) ∧
      shape29.WeaklyReduced ([3, 5].getD i 0) ∧ shape29.WeaklyReduced ([13, 17].getD i 0)) ∧
    (∀ i < (2 : Imm32).toNat, ∀ j < (2 : Imm32).toNat, [3, 5].getD i 0 ≤ [3, 5].getD j 0 + shape29.prime) ∧
    (∀ i < (2 : Imm32).toNat, ¬ shape29.prime ∣ [3, 5].getD i 0) ∧
    (∀ i < (2 : Imm32).toNat, ∀ j < (2 : Imm32).toNat,
      [3, 5].getD i 0 % shape29.prime = [3, 5].getD j 0 % shape29.prime → i = j) ∧
    (∀ i < (2 : Imm32).toNat, [13, 17].getD i 0 % shape29.prime =
      (∑ k ∈ Finset.range (2 : Imm32).toNat, [7, 2].getD k 0 * [3, 5].getD i 0 ^ k) % shape29.prime) :=
  ⟨ready_of rfl (by decide), by decide +kernel, by decide +kernel,
    by rw [show shape29.prime = 29 by decide +kernel]; norm_num, by decide +kernel⟩

/-- JoinCompletes, where its two clauses meet: the greatest `x` at `0 + p` exactly, and one above it. -/
theorem witness_joinBoundary :
    (withRegs shape29 [29, 1, 0, 1]).Inv ∧ (withRegs shape29 [30, 1, 0, 1]).Inv ∧
    Ready (withRegs shape29 [29, 1, 0, 1]) shape29 [8] ∧ Ready (withRegs shape29 [30, 1, 0, 1]) shape29 [8] ∧
    (∀ x ∈ [29, 30], ∀ i < (2 : Imm32).toNat,
      (withRegs shape29 [x, 1, 0, 1]).elem ((0 : Reg).toNat + 2 * i) = some ([x, 0].getD i 0) ∧
      (withRegs shape29 [x, 1, 0, 1]).elem ((0 : Reg).toNat + 2 * i + 1) = some ([1, 1].getD i 0) ∧
      shape29.WeaklyReduced ([x, 0].getD i 0) ∧ shape29.WeaklyReduced ([1, 1].getD i 0)) ∧
    (∀ i < (2 : Imm32).toNat, ∀ j < (2 : Imm32).toNat, [29, 0].getD i 0 ≤ [29, 0].getD j 0 + shape29.prime) ∧
    (∃ i < (2 : Imm32).toNat, ∃ j < (2 : Imm32).toNat, [30, 0].getD j 0 + shape29.prime < [30, 0].getD i 0) :=
  ⟨withRegs_inv (by decide +kernel) (by decide) (by decide +kernel),
    withRegs_inv (by decide +kernel) (by decide) (by decide +kernel), ready_of rfl (by decide), ready_of rfl (by decide),
    by decide +kernel⟩

/-- JoinDegeneratePointsGiveZero: a share run with a repeated point and one with the point zero, each with its `x` at
most `p`. -/
theorem witness_joinDegenerate :
    (∀ i < (2 : Imm32).toNat, (withRegs shape29 [3, 13, 3, 13]).elem ((0 : Reg).toNat + 2 * i) = some ([3, 3].getD i 0) ∧
      (withRegs shape29 [3, 13, 3, 13]).elem ((0 : Reg).toNat + 2 * i + 1) = some ([13, 13].getD i 0)) ∧
    (∃ i < (2 : Imm32).toNat, ∃ j < (2 : Imm32).toNat, i ≠ j ∧
      [3, 3].getD i 0 % shape29.prime = [3, 3].getD j 0 % shape29.prime) ∧
    (∀ i < (2 : Imm32).toNat, (withRegs shape29 [0, 7, 5, 17]).elem ((0 : Reg).toNat + 2 * i) = some ([0, 5].getD i 0) ∧
      (withRegs shape29 [0, 7, 5, 17]).elem ((0 : Reg).toNat + 2 * i + 1) = some ([7, 17].getD i 0)) ∧
    (∃ i < (2 : Imm32).toNat, [0, 5].getD i 0 % shape29.prime = 0 % shape29.prime) ∧
    (∀ x ∈ [0, 3, 5], ∀ y ∈ [0, 3, 5], x ≤ y + shape29.prime) ∧
    (∀ x ∈ [0, 3, 5, 7, 13, 17], shape29.WeaklyReduced x) := by decide +kernel

/-- JoinDegeneratePointsGiveZero: both runs lie in states that meet the invariant. -/
theorem witness_joinDegenerate_inv : (withRegs shape29 [3, 13, 3, 13]).Inv ∧ (withRegs shape29 [0, 7, 5, 17]).Inv := by
  exact ⟨withRegs_inv (by decide +kernel) (by decide) (by decide +kernel),
    withRegs_inv (by decide +kernel) (by decide) (by decide +kernel)⟩

/-- SharingErrors: the first operand of each error of `SPLIT` and `JOIN`. -/
theorem witness_sharingErrors :
    sharingState.shape = some shape29 ∧ shape29.invOk = true ∧ (1 : Imm32).toNat < 2 ∧
    sharingState.cfg.nreg ≤ (64 : Reg).toNat ∧ sharingState.cfg.nreg < (63 : Reg).toNat + (2 : Imm32).toNat ∧
    sharingState.cfg.nreg < (61 : Reg).toNat + 2 * (2 : Imm32).toNat ∧
    sharingState.cfg.partsMax < (17 : Imm32).toNat ∧
    (0 : Reg).toNat + 2 * (17 : Imm32).toNat ≤ sharingState.cfg.nreg ∧
    sharingState.elem (7 : Reg).toNat = none ∧
    (∃ i < (2 : Imm32).toNat, sharingState.elem ((6 : Reg).toNat + i) = none) ∧
    (∃ i < 2 * (2 : Imm32).toNat, sharingState.elem ((4 : Reg).toNat + i) = none) := by decide +kernel

end Sys2Proof.Tests
end

section
/-! `RDCSR` and the CSR map (rules R31 to R34, R108): which register a number names, what the register reads, and how the
command ends; from these the statements O20 and O21. -/

namespace Sys2Proof.Machine

open Sys2Proof.Claim

/-! The CSR map. -/

/-- The CSRs that hold the shape block: those rule R31 makes readable when `SHAPE_VALID = 1`. -/
def Csr.ofShape : Csr → Bool
  | .status | .err | .errop | .lmax | .nreg | .bufsize | .partsMax => false
  | _ => true

/-- From 0x1C on the map holds the two arrays and nothing else (rules R31, R34). -/
theorem csrOfNumber_of_scalars_lt {k : Nat} (h : 0x1B < k) :
    csrOfNumber k =
      if 0x20 ≤ k ∧ k < 0x40 then some (.p (k - 0x20))
      else if 0x40 ≤ k ∧ k < 0x60 then some (.chain (k - 0x40))
      else none := by
  unfold csrOfNumber
  split
  case h_20 => rfl
  all_goals omega

theorem csrOfNumber_p {i : Nat} (hi : i < 32) : csrOfNumber (0x20 + i) = some (.p i) := by
  rw [csrOfNumber_of_scalars_lt (by omega), if_pos (by omega), Nat.add_sub_cancel_left]

theorem csrOfNumber_chain {i : Nat} (hi : i < 32) : csrOfNumber (0x40 + i) = some (.chain i) := by
  rw [csrOfNumber_of_scalars_lt (by omega), if_neg (by omega), if_pos (by omega), Nat.add_sub_cancel_left]

/-- The gaps of the map and what is above it (rule R34). -/
theorem csrOfNumber_eq_none {k : Nat}
    (h : 3 ≤ k ∧ k ≤ 7 ∨ 0x0C ≤ k ∧ k ≤ 0x0F ∨ 0x1C ≤ k ∧ k ≤ 0x1F ∨ 0x60 ≤ k) : csrOfNumber k = none := by
  rcases h with ⟨hlo, hhi⟩ | ⟨hlo, hhi⟩ | h
  · interval_cases k <;> rfl
  · interval_cases k <;> rfl
  · rw [csrOfNumber_of_scalars_lt (by omega), if_neg (by omega), if_neg (by omega)]

/-- The numbers of the map at or above 0x10 name CSRs of the shape block (rule R31). -/
theorem csrOfNumber_ofShape {k : Nat} (h : 0x10 ≤ k ∧ k ≤ 0x1B ∨ 0x20 ≤ k ∧ k ≤ 0x5F) :
    ∃ c, csrOfNumber k = some c ∧ c.ofShape = true := by
  rcases h with ⟨hlo, hhi⟩ | ⟨hlo, hhi⟩
  · interval_cases k <;> exact ⟨_, rfl, rfl⟩
  · obtain ⟨i, rfl⟩ := Nat.exists_eq_add_of_le hlo
    rcases Nat.lt_or_ge i 32 with hi | hi
    · exact ⟨.p i, csrOfNumber_p hi, rfl⟩
    · obtain ⟨j, rfl⟩ := Nat.exists_eq_add_of_le hi
      rw [show 0x20 + (32 + j) = 0x40 + j by omega]
      exact ⟨.chain j, csrOfNumber_chain (by omega), rfl⟩

/-! What a CSR reads. -/

theorem readCsr_of_ofShape {c : Csr} (hc : c.ofShape = true) (s : State) :
    readCsr s c = s.needShape >>= fun sh => pure (shapeCsr sh c) := by
  cases c
  case status | err | errop | lmax | nreg | bufsize | partsMax => cases hc
  all_goals rfl

theorem readCsr_eq_shapeCsr {s : State} {sh : Shape} {c : Csr} (hc : c.ofShape = true) (hsh : s.shape = some sh) :
    readCsr s c = .ok (shapeCsr sh c) := by
  rw [readCsr_of_ofShape hc, State.needShape_eq_ok.mpr hsh, ok_bind, pure_eq_ok]

theorem readCsr_eq_noShape {s : State} {c : Csr} (hc : c.ofShape = true) (hsh : s.shape = none) :
    readCsr s c = .error .noShape := by
  rw [readCsr_of_ofShape hc, State.needShape_eq_error.mpr ⟨hsh, rfl⟩, error_bind]

theorem State.status_of_no_shape {s : State} (h : s.shape = none) : s.status = 0 := by
  simp [State.status, State.shapeValid, State.topw1, State.invOk, h]

/-- `STATUS` with a shape in force is made of the three bits of rule R32. -/
theorem State.status_of_shape {s : State} {sh : Shape} (h : s.shape = some sh) :
    s.status = BitVec.ofNat 64 (1 + 2 * sh.topw1.toNat + 4 * sh.invOk.toNat) := by
  simp [State.status, State.shapeValid, State.topw1, State.invOk, h]

/-! What `DERIVE` puts into the fields that `STATUS` and the arrays show. -/

section
variable {cfg : Config} {sh : Shape}

theorem Shape.Derived.topw1_eq (h : sh.Derived cfg) : sh.topw1 = decide (sh.topshift = 1) := by
  rw [h.eq]; rfl

theorem Shape.Derived.invOk_eq (h : sh.Derived cfg) : sh.invOk = decide (sh.ls + 1 ≤ sh.modbits) := by
  rw [h.eq]; rfl

theorem Shape.Derived.p_eq (h : sh.Derived cfg) : sh.p = limbs sh.prime sh.limbcount := by
  rw [h.eq]; rfl

theorem Shape.Derived.chainlen_eq (h : sh.Derived cfg) : sh.chainlen = sh.chain.length := by
  rw [h.eq]; rfl

/-- Reading past the limbs gives 0 (rule R31). -/
theorem getD_limbs (v count i : Nat) :
    (limbs v count).getD i 0 = BitVec.ofNat 64 (if i < count then v / 2 ^ (64 * i) else 0) := by
  by_cases hi : i < count <;> simp [limbs, limb, hi]

theorem Shape.Derived.shapeCsr_p (h : sh.Derived cfg) (i : Nat) :
    shapeCsr sh (.p i) = BitVec.ofNat 64 (if i < sh.limbcount then sh.prime / 2 ^ (64 * i) else 0) := by
  rw [shapeCsr, h.p_eq, getD_limbs]

/-- The entries of `CHAIN` beyond its length already read 0 (rule R31). -/
theorem Shape.Derived.shapeCsr_chain (h : sh.Derived cfg) (i : Nat) :
    shapeCsr sh (.chain i) =
      BitVec.ofNat 64 (if i < sh.chainlen then (sh.chain.map factorNumber).getD i 0 else 0) := by
  rw [shapeCsr, h.chainlen_eq]
  split
  case isTrue => rfl
  case isFalse hi => rw [List.getD_eq_default _ _ (by simpa using hi)]

theorem Shape.Derived.status_eq {s : State} (h : sh.Derived cfg) (hsh : s.shape = some sh) :
    s.status = BitVec.ofNat 64
      (1 + (if sh.topshift = 1 then 2 else 0) + (if sh.ls + 1 ≤ sh.modbits then 4 else 0)) := by
  rw [State.status_of_shape hsh, h.topw1_eq, h.invOk_eq]
  by_cases ht : sh.topshift = 1 <;> by_cases hl : sh.ls + 1 ≤ sh.modbits <;> simp [ht, hl]

end

/-! How `RDCSR` ends. -/

section
variable {s : State} {sh : Shape} {csr : Imm32} {c : Csr}

/-- A number that names a CSR ends as the reading of that CSR does. -/
theorem exec_rdcsr_of_some (hc : csrOfNumber csr.toNat = some c) :
    exec (.rdcsr csr) s = commit (.rdcsr csr) s (readCsr s c >>= fun v => pure (s, v)) := by
  rw [show exec (.rdcsr csr) s = execRdcsr csr s from rfl, execRdcsr, hc]

theorem exec_rdcsr_answered {v : Limb} (hc : csrOfNumber csr.toNat = some c) (hv : readCsr s c = .ok v) :
    exec (.rdcsr csr) s = answered s v := by
  rw [exec_rdcsr_of_some hc, hv, ok_bind, pure_eq_ok, commit_ok]
  rfl

/-- With a shape in force, a CSR of the shape block answers its value. -/
theorem exec_rdcsr_shapeCsr (hsh : s.shape = some sh) (hc : csrOfNumber csr.toNat = some c) (hs : c.ofShape = true) :
    exec (.rdcsr csr) s = answered s (shapeCsr sh c) :=
  exec_rdcsr_answered hc (readCsr_eq_shapeCsr hs hsh)

theorem exec_rdcsr_noShape (hsh : s.shape = none) (hc : csrOfNumber csr.toNat = some c) (hs : c.ofShape = true) :
    exec (.rdcsr csr) s = failed s 0x03 6 := by
  rw [exec_rdcsr_of_some hc, readCsr_eq_noShape hs hsh, error_bind, commit_error]
  rfl

theorem exec_rdcsr_badIndex (hc : csrOfNumber csr.toNat = none) : exec (.rdcsr csr) s = failed s 0x03 11 := by
  rw [show exec (.rdcsr csr) s = execRdcsr csr s from rfl, execRdcsr, hc, commit_error]
  rfl

/-- `P[i]` reads limb `i` of the prime, and 0 from `LIMBCOUNT` on (rule R31). -/
theorem exec_rdcsr_p (hsh : s.shape = some sh) (h : sh.Derived s.cfg) {i : Nat} (hi : i < 32) :
    exec (.rdcsr (BitVec.ofNat 32 (0x20 + i))) s =
      answered s (BitVec.ofNat 64 (if i < sh.limbcount then sh.prime / 2 ^ (64 * i) else 0)) := by
  rw [← h.shapeCsr_p]
  refine exec_rdcsr_shapeCsr hsh ?_ rfl
  rw [BitVec.toNat_ofNat, Nat.mod_eq_of_lt (by omega), csrOfNumber_p hi]

/-- `CHAIN[i]` reads entry `i` of the schedule, and 0 from `CHAINLEN` on (rule R31). -/
theorem exec_rdcsr_chain (hsh : s.shape = some sh) (h : sh.Derived s.cfg) {i : Nat} (hi : i < 32) :
    exec (.rdcsr (BitVec.ofNat 32 (0x40 + i))) s =
      answered s (BitVec.ofNat 64 (if i < sh.chainlen then (sh.chain.map factorNumber).getD i 0 else 0)) := by
  rw [← h.shapeCsr_chain]
  refine exec_rdcsr_shapeCsr hsh ?_ rfl
  rw [BitVec.toNat_ofNat, Nat.mod_eq_of_lt (by omega), csrOfNumber_chain hi]

end

/-- Settles O20: each number of the map with the CSR it names, in the order of the table of rule R31. -/
theorem rdcsrReturnsCsrValue : Obligations.RdcsrReturnsCsrValue := by
  intro s
  refine ⟨?always, fun hsh => ?statusNoShape, fun sh hsh hder => ?withShape⟩
  case always =>
    exact ⟨exec_rdcsr_answered (c := .err) rfl rfl, exec_rdcsr_answered (c := .errop) rfl rfl,
      exec_rdcsr_answered (c := .lmax) rfl rfl, exec_rdcsr_answered (c := .nreg) rfl rfl,
      exec_rdcsr_answered (c := .bufsize) rfl rfl, exec_rdcsr_answered (c := .partsMax) rfl rfl⟩
  case statusNoShape =>
    rw [← State.status_of_no_shape hsh]
    exact exec_rdcsr_answered (c := .status) rfl rfl
  case withShape =>
    have status : exec (.rdcsr 0x00) s = answered s s.status := exec_rdcsr_answered (c := .status) rfl rfl
    rw [hder.status_eq hsh] at status
    exact ⟨status, exec_rdcsr_shapeCsr (c := .bits) hsh rfl rfl, exec_rdcsr_shapeCsr (c := .word) hsh rfl rfl,
      exec_rdcsr_shapeCsr (c := .modbits) hsh rfl rfl, exec_rdcsr_shapeCsr (c := .limbcount) hsh rfl rfl,
      exec_rdcsr_shapeCsr (c := .bytecount) hsh rfl rfl, exec_rdcsr_shapeCsr (c := .topshift) hsh rfl rfl,
      exec_rdcsr_shapeCsr (c := .topmask) hsh rfl rfl, exec_rdcsr_shapeCsr (c := .shiftcomp) hsh rfl rfl,
      exec_rdcsr_shapeCsr (c := .ls) hsh rfl rfl, exec_rdcsr_shapeCsr (c := .wlow) hsh rfl rfl,
      exec_rdcsr_shapeCsr (c := .m) hsh rfl rfl, exec_rdcsr_shapeCsr (c := .chainlen) hsh rfl rfl,
      fun i hi => ⟨exec_rdcsr_p hsh hder hi, exec_rdcsr_chain hsh hder hi⟩⟩

/-- Settles O21: the numbers of no CSR, and those of the shape block without a shape. -/
theorem rdcsrErrors : Obligations.RdcsrErrors := by
  intro s k
  refine ⟨fun hgap => exec_rdcsr_badIndex (csrOfNumber_eq_none hgap), fun hsh hk => ?_⟩
  obtain ⟨c, hc, hs⟩ := csrOfNumber_ofShape hk
  exact exec_rdcsr_noShape hsh hc hs

end Sys2Proof.Machine
end

section
/-! The decoder against the opcode table (rules R71 to R79): an accepted word is the encoding of what was read from it, and
a legal command's word selects the row of its opcode; so a word that selects no row fails with `IllegalCommand` (rules R75
to R77, R280), which is the statement O5. -/

namespace Sys2Proof

/-! The formats of rule R72. -/

/-- The fields of `f` that the format uses, and the opcode; 0 in the others. -/
def Format.keep : Format → Fields → Fields
  | .N, f => { opcode := f.opcode }
  | .I, f => { opcode := f.opcode, imm32 := f.imm32 }
  | .Q, f => { opcode := f.opcode, imm64 := f.imm64 }
  | .IQ, f => { opcode := f.opcode, imm32 := f.imm32, imm64 := f.imm64 }
  | .DA, f => { opcode := f.opcode, rd := f.rd, rs1 := f.rs1 }
  | .DQ, f => { opcode := f.opcode, rd := f.rd, imm64 := f.imm64 }
  | .DIQ, f => { opcode := f.opcode, rd := f.rd, imm32 := f.imm32, imm64 := f.imm64 }
  | .AIQ, f => { opcode := f.opcode, rs1 := f.rs1, imm32 := f.imm32, imm64 := f.imm64 }
  | .AI, f => { opcode := f.opcode, rs1 := f.rs1, imm32 := f.imm32 }
  | .DAB, f => { opcode := f.opcode, rd := f.rd, rs1 := f.rs1, rs2 := f.rs2 }
  | .DAI, f => { opcode := f.opcode, rd := f.rd, rs1 := f.rs1, imm32 := f.imm32 }
  | .DAQ, f => { opcode := f.opcode, rd := f.rd, rs1 := f.rs1, imm64 := f.imm64 }
  | .DABI, f => { opcode := f.opcode, rd := f.rd, rs1 := f.rs1, rs2 := f.rs2, imm32 := f.imm32 }

/-- The must-be-zero fields are 0 exactly when the format's own fields are all there is (rule R76). -/
theorem unusedFieldsZero_iff (fmt : Format) (f : Fields) : unusedFieldsZero fmt f = true ↔ f = fmt.keep f := by
  obtain ⟨opcode, rd, rs1, rs2, imm32, imm64⟩ := f
  cases fmt <;> simp [unusedFieldsZero, Format.keep, and_assoc]

theorem acceptFormat_eq_ok {fmt : Format} {f : Fields} {i j : Instr} :
    acceptFormat fmt f i = .ok j ↔ f = fmt.keep f ∧ i = j := by
  rw [← unusedFieldsZero_iff, acceptFormat]
  split <;> simp [*]

/-! The decoder inverts the encoder's field map. -/

/-- What a format accepts has the fields it was read from, if the arm of the decoder is that of its opcode. -/
theorem fieldsOf_of_acceptFormat {fmt : Format} {f : Fields} {i j : Instr} (hop : f.opcode.toNat = (opcodeOf i).toNat)
    (hfields : fieldsOf i = { fmt.keep f with opcode := opcodeOf i }) (hwf : wellFormed i = true)
    (h : acceptFormat fmt f i = .ok j) : fieldsOf j = f ∧ wellFormed j = true := by
  obtain ⟨hkeep, rfl⟩ := acceptFormat_eq_ok.mp h
  exact ⟨by rw [hfields, ← hkeep, ← BitVec.eq_of_toNat_eq hop], hwf⟩

/-- One spelling per command: an accepted word has the fields of the command read from it, and that is a legal one
(rules R70, R74, R77). -/
theorem fieldsOf_of_decodeFields {f : Fields} {i : Instr} (h : decodeFields f = .ok i) :
    fieldsOf i = f ∧ wellFormed i = true := by
  unfold decodeFields at h
  split at h
  case h_10 hop =>
    split at h
    case isTrue hbyte => exact fieldsOf_of_acceptFormat (i := .bufwr f.imm32 f.imm64) hop rfl (decide_eq_true hbyte) h
    case isFalse => cases h
  case h_23 => cases h
  all_goals exact fieldsOf_of_acceptFormat ‹_› rfl rfl h

theorem eq_encode_of_decode {w : Cmd} {i : Instr} (h : decode w = .ok i) : w = encode i ∧ wellFormed i = true := by
  obtain ⟨hfields, hwf⟩ := fieldsOf_of_decodeFields h
  exact ⟨by rw [encode, hfields, cmdOfFields_fieldsOfCmd], hwf⟩

/-! Masks, field by field. -/

/-- Bitwise AND of each field. -/
def Fields.and (f g : Fields) : Fields :=
  ⟨f.opcode &&& g.opcode, f.rd &&& g.rd, f.rs1 &&& g.rs1, f.rs2 &&& g.rs2, f.imm32 &&& g.imm32, f.imm64 &&& g.imm64⟩

theorem fieldsOfCmd_and (v w : Cmd) : fieldsOfCmd (v &&& w) = (fieldsOfCmd v).and (fieldsOfCmd w) := by
  simp [fieldsOfCmd, Fields.and, BitVec.extractLsb'_and]

theorem fieldsOfCmd_inj {v w : Cmd} : fieldsOfCmd v = fieldsOfCmd w ↔ v = w :=
  ⟨fun h => by rw [← cmdOfFields_fieldsOfCmd v, h, cmdOfFields_fieldsOfCmd], congrArg fieldsOfCmd⟩

/-- The mask and match test on the word of a command, read on the command's fields. -/
theorem encode_and_eq_iff (i : Instr) (r : OpcodeRow) :
    encode i &&& r.mask = r.pattern ↔ (fieldsOf i).and (fieldsOfCmd r.mask) = fieldsOfCmd r.pattern := by
  rw [← fieldsOfCmd_inj, fieldsOfCmd_and, encode, fieldsOfCmd_cmdOfFields]

/-- The mask of `BUFWR` covers bits 31:8 of `imm32` (rule R77). -/
theorem imm32_and_highBytes {byte : Imm32} (h : byte.toNat < 256) : byte &&& 0xFFFFFF00 = 0 := by
  have hbyte : byte = 0#24 ++ byte.setWidth 8 :=
    BitVec.eq_of_toNat_eq (.symm ((BitVec.toNat_append _ _).trans (by simp [Nat.mod_eq_of_lt h])))
  have hmask : (0xFFFFFF00 : Imm32) = BitVec.allOnes 24 ++ 0#8 := by decide
  rw [hbyte, hmask, BitVec.and_append, BitVec.zero_and, BitVec.and_zero]
  rfl

/-- The row of the opcode table is that of the opcode `op`. -/
def OpcodeRow.hasOpcode (op : Byte) (r : OpcodeRow) : Bool := r.pattern.extractLsb' 120 8 == op

/-- The word of a legal command selects the row of its opcode. -/
theorem encode_selects_row {i : Instr} (hwf : wellFormed i = true) :
    ∃ r ∈ opcodeRows, encode i &&& r.mask = r.pattern := by
  suffices h : ∃ r, opcodeRows.find? (OpcodeRow.hasOpcode (opcodeOf i)) = some r ∧
      (fieldsOf i).and (fieldsOfCmd r.mask) = fieldsOfCmd r.pattern by
    obtain ⟨r, hr, hsel⟩ := h
    exact ⟨r, List.mem_of_find?_eq_some hr, (encode_and_eq_iff i r).mpr hsel⟩
  cases i
  case bufwr byte addr =>
    refine ⟨_, rfl, ?_⟩
    simpa [fieldsOf, fieldsOfCmd, Fields.and] using imm32_and_highBytes (of_decide_eq_true hwf)
  all_goals exact ⟨_, rfl, by simp [fieldsOf, fieldsOfCmd, Fields.and]⟩

/-! The opcodes of the table. -/

/-- A word that selects a row has its opcode: every mask covers bits 127:120. -/
theorem opcode_eq_of_selects {w : Cmd} {r : OpcodeRow} (hr : r ∈ opcodeRows) (h : w &&& r.mask = r.pattern) :
    w.extractLsb' 120 8 = r.pattern.extractLsb' 120 8 := by
  have hmask : ∀ r ∈ opcodeRows, r.mask.extractLsb' 120 8 = BitVec.allOnes 8 := by decide
  rw [← h, BitVec.extractLsb'_and, hmask r hr, BitVec.and_allOnes]

/-- No two rows have one opcode (rule R74). -/
theorem row_eq_of_opcode_eq {r r' : OpcodeRow} (hr : r ∈ opcodeRows) (hr' : r' ∈ opcodeRows)
    (h : r.pattern.extractLsb' 120 8 = r'.pattern.extractLsb' 120 8) : r = r' := by
  have hnodup : (opcodeRows.map fun r => r.pattern.extractLsb' 120 8).Nodup := by decide
  exact List.inj_on_of_nodup_map hnodup hr hr' h

/-- A word the decoder accepts selects a row, and that row has the word's opcode. -/
theorem selects_of_decode {w : Cmd} {i : Instr} (h : decode w = .ok i) :
    ∃ r ∈ opcodeRows, w &&& r.mask = r.pattern ∧ w.extractLsb' 120 8 = r.pattern.extractLsb' 120 8 := by
  obtain ⟨rfl, hwf⟩ := eq_encode_of_decode h
  obtain ⟨r, hr, hsel⟩ := encode_selects_row hwf
  exact ⟨r, hr, hsel, opcode_eq_of_selects hr hsel⟩

theorem decode_error_of_reservedOpcode {w : Cmd}
    (h : ∀ r ∈ opcodeRows, w.extractLsb' 120 8 ≠ r.pattern.extractLsb' 120 8) : ∃ e, decode w = .error e := by
  cases hdec : decode w with
  | error e => exact ⟨e, rfl⟩
  | ok i =>
    obtain ⟨r, hr, -, hop⟩ := selects_of_decode hdec
    exact absurd hop (h r hr)

theorem decode_error_of_forbiddenBit {w : Cmd} {r : OpcodeRow} (hr : r ∈ opcodeRows)
    (hop : w.extractLsb' 120 8 = r.pattern.extractLsb' 120 8) (hsel : w &&& r.mask ≠ r.pattern) :
    ∃ e, decode w = .error e := by
  cases hdec : decode w with
  | error e => exact ⟨e, rfl⟩
  | ok i =>
    obtain ⟨r', hr', hsel', hop'⟩ := selects_of_decode hdec
    obtain rfl := row_eq_of_opcode_eq hr hr' (hop.symm.trans hop')
    exact absurd hsel' hsel

end Sys2Proof

namespace Sys2Proof.Machine

open Sys2Proof.Claim

/-- The step on a word the decoder refuses (rules R75 to R77, R280). -/
theorem step_of_decode_error {s : State} {w : Cmd} {rest : List HostEvent} (hport : s.port = .command w :: rest)
    (h : ∃ e, decode w = .error e) : step s = failed { s with port := rest } (w.extractLsb' 120 8) 5 := by
  obtain ⟨e, he⟩ := h
  simp only [step, hport, he, State.takeEvent, List.tail_cons]
  rfl

/-- Settles O5: the decoder refuses both kinds of word, and the step on a refused word is the failure. -/
theorem illegalWordsFail : Obligations.IllegalWordsFail := by
  intro s w rest hport
  refine ⟨fun hreserved => ?_, fun ⟨r, hr, hop, hsel⟩ => ?_⟩
  · exact step_of_decode_error hport (decode_error_of_reservedOpcode hreserved)
  · exact step_of_decode_error hport (decode_error_of_forbiddenBit hr hop hsel)

end Sys2Proof.Machine
end

section
/-! `NOP`, `CLRERR` and `DERIVE` (rules R101 to R103, R109, R111, R314): what each does to the state, the one legal word of
the two commands without operands, and the size constants and limb table that `DERIVE` installs; from these the statements
O14 and O15. -/

namespace Sys2Proof

/-! The commands without operands have one legal word each (rules R70, R76). -/

/-- A word decodes to a command exactly when it is the command's word, provided that word decodes to it. -/
theorem decode_eq_ok_iff {w v : Cmd} {i : Instr} (henc : encode i = v) (hdec : decode v = .ok i) :
    decode w = .ok i ↔ w = v :=
  ⟨fun h => (eq_encode_of_decode h).1.trans henc, fun h => h ▸ hdec⟩

/-- Any word but the pattern is refused, in a row whose mask covers the whole word. -/
theorem decode_error_of_fullMask {w : Cmd} {r : OpcodeRow} (hr : r ∈ opcodeRows) (hmask : r.mask = BitVec.allOnes 128)
    (hop : w.extractLsb' 120 8 = r.pattern.extractLsb' 120 8) (hne : w ≠ r.pattern) : ∃ e, decode w = .error e :=
  decode_error_of_forbiddenBit hr hop (by rwa [hmask, BitVec.and_allOnes])

end Sys2Proof

namespace Sys2Proof.Machine

open Sys2Proof.Claim

theorem exec_nop (s : State) : exec .nop s = answered s 0 := rfl

theorem exec_clrerr (s : State) : exec .clrerr s = .next (s.clearErr.respond 0) := rfl

/-! The error record. -/

/-- An `ERR` that is set survives every failure (rule R33). -/
theorem State.fail_err_of_set {s : State} (h : s.err ≠ 0) (op : Byte) (k : ErrorKind) : (s.fail op k).err = s.err := by
  rw [State.fail_err, if_neg h]

/-- Of all effects only that of `CLRERR` changes `ERR`. -/
theorem Effect.err_eq {i : Instr} {s t : State} {data : Limb} (h : Effect i s t data) (hi : i ≠ .clrerr) :
    t.err = s.err := by
  cases h
  case clear hclr => exact absurd hclr hi
  all_goals rfl

/-- No command but `CLRERR` changes an `ERR` that is set (rules R33, R111). -/
theorem exec_err_of_set {i : Instr} {s t : State} (h : exec i s = .next t) (hs : s.err ≠ 0) (hi : i ≠ .clrerr) :
    t.err = s.err := by
  rcases exec_cases i s with ⟨k, hfail⟩ | ⟨u, data, hdone, heff⟩
  · obtain rfl : s.fail (opcodeOf i) k = t := Host.Outcome.next.inj (hfail.symm.trans h)
    exact State.fail_err_of_set hs _ k
  · obtain rfl : u.respond data = t := Host.Outcome.next.inj (hdone.symm.trans h)
    exact heff.err_eq hi

/-- Settles O14: the two effects, the two legal words, the rows that refuse the others, and the record that every other
command keeps. -/
theorem nopDoesNothingAndClrerrClearsRecord : Obligations.NopDoesNothingAndClrerrClearsRecord := by
  refine ⟨exec_nop, exec_clrerr, fun w => ⟨?nopWord, ?clrerrWord⟩, fun s w rest hport hw => ?illegal,
    fun i s t h hs ht => ?onlyClrerr⟩
  case nopWord => exact decode_eq_ok_iff (by decide) (by decide)
  case clrerrWord => exact decode_eq_ok_iff (by decide) (by decide)
  case illegal =>
    refine step_of_decode_error hport ?_
    rcases hw with ⟨hop, hne⟩ | ⟨hop, hne⟩
    · exact decode_error_of_fullMask (r := ⟨"NOP", 0, BitVec.allOnes 128⟩) (by decide) rfl hop hne
    · exact decode_error_of_fullMask (r := ⟨"CLRERR", 0x02000000000000000000000000000000, BitVec.allOnes 128⟩) (by decide)
        rfl hop hne
  case onlyClrerr =>
    by_contra hi
    exact hs ((exec_err_of_set h hs hi).symm.trans ht)

/-! The size constants and the limb table (rules R8, R9, R102, R103). -/

/-- `ceilDiv n b` is the least `q` with `n ≤ b * q`. -/
theorem ceilDiv_le_iff {n b : Nat} (hb : 0 < b) (q : Nat) : ceilDiv n b ≤ q ↔ n ≤ b * q := by
  rw [ceilDiv, Nat.div_le_iff_le_mul hb, Nat.mul_comm]
  omega

theorem ceilDiv_bounds {n b : Nat} (hb : 0 < b) (hn : 0 < n) : b * (ceilDiv n b - 1) < n ∧ n ≤ b * ceilDiv n b := by
  have hle : n ≤ b * ceilDiv n b := (ceilDiv_le_iff hb _).mp le_rfl
  have hpos : ceilDiv n b ≠ 0 := fun h0 => by rw [h0, Nat.mul_zero] at hle; omega
  exact ⟨Nat.lt_of_not_le fun h => by have := (ceilDiv_le_iff hb _).mpr h; omega, hle⟩

theorem toNat_getD_limbs {v count i : Nat} (hi : i < count) :
    ((limbs v count).getD i 0).toNat = v / 2 ^ (64 * i) % 2 ^ 64 := by
  rw [getD_limbs, if_pos hi, BitVec.toNat_ofNat]

/-- The lowest limbs of a value spell the value modulo their width. -/
theorem sum_range_limbs (v count : Nat) :
    ∑ i ∈ Finset.range count, v / 2 ^ (64 * i) % 2 ^ 64 * 2 ^ (64 * i) = v % 2 ^ (64 * count) := by
  simp only [Nat.pow_mul]
  induction count with
  | zero => simp [Nat.mod_one]
  | succ count ih => rw [Finset.sum_range_succ, ih, Nat.mul_comm, ← Nat.mod_pow_succ]

/-- A limb table long enough for a value spells it. -/
theorem sum_limbs {v count : Nat} (hv : v < 2 ^ (64 * count)) :
    ∑ i ∈ Finset.range count, ((limbs v count).getD i 0).toNat * 2 ^ (64 * i) = v := by
  calc ∑ i ∈ Finset.range count, ((limbs v count).getD i 0).toNat * 2 ^ (64 * i)
      = ∑ i ∈ Finset.range count, v / 2 ^ (64 * i) % 2 ^ 64 * 2 ^ (64 * i) :=
        Finset.sum_congr rfl fun i hi => by rw [toNat_getD_limbs (Finset.mem_range.mp hi)]
    _ = v % 2 ^ (64 * count) := sum_range_limbs v count
    _ = v := Nat.mod_eq_of_lt hv

/-- The limb at a position holds no more than what a bound on the value leaves above that position. -/
theorem getD_limbs_lt {v count i r : Nat} (hi : i < count) (hv : v < 2 ^ (64 * i + r)) :
    ((limbs v count).getD i 0).toNat < 2 ^ r := by
  rw [toNat_getD_limbs hi]
  refine (Nat.mod_le _ _).trans_lt (Nat.div_lt_of_lt_mul ?_)
  rwa [← Nat.pow_add]

section
variable {bits : Imm32} {word : Imm64}

theorem shapeOf_modbits : (shapeOf bits word).modbits = bits.toNat + 1 := rfl

theorem shapeOf_limbcount : (shapeOf bits word).limbcount = ceilDiv (bits.toNat + 1) 64 := rfl

theorem shapeOf_bytecount : (shapeOf bits word).bytecount = ceilDiv (bits.toNat + 1) 8 := rfl

theorem shapeOf_topshift : (shapeOf bits word).topshift = (bits.toNat + 1) % 64 := rfl

theorem shapeOf_topmask : (shapeOf bits word).topmask = 2 ^ (shapeOf bits word).topshift - 1 := rfl

theorem shapeOf_shiftcomp : (shapeOf bits word).shiftcomp = 64 - (shapeOf bits word).topshift := rfl

theorem shapeOf_topw1 : (shapeOf bits word).topw1 = true ↔ (shapeOf bits word).topshift = 1 := decide_eq_true_iff

theorem shapeOf_p :
    (shapeOf bits word).p = limbs (2 ^ (bits.toNat + 1) - word.toNat) (shapeOf bits word).limbcount := rfl

theorem shapeOf_limbcount_bounds :
    64 * ((shapeOf bits word).limbcount - 1) < bits.toNat + 1 ∧ bits.toNat + 1 ≤ 64 * (shapeOf bits word).limbcount :=
  ceilDiv_bounds (by decide) (Nat.succ_pos _)

theorem shapeOf_bytecount_bounds :
    8 * ((shapeOf bits word).bytecount - 1) < bits.toNat + 1 ∧ bits.toNat + 1 ≤ 8 * (shapeOf bits word).bytecount :=
  ceilDiv_bounds (by decide) (Nat.succ_pos _)

theorem shapeOf_p_length : (shapeOf bits word).p.length = (shapeOf bits word).limbcount := by
  simp [shapeOf_p, limbs]

/-- The prime of an odd `word` has at most `n` bits (rule R103). -/
theorem prime_lt_two_pow (n : Nat) (hodd : word.toNat % 2 = 1) : 2 ^ n - word.toNat < 2 ^ n :=
  Nat.sub_lt (Nat.two_pow_pos n) (by omega)

/-- The limb table of the shape block spells the prime (rule R103). -/
theorem shapeOf_sum_p (hodd : word.toNat % 2 = 1) :
    ∑ i ∈ Finset.range (shapeOf bits word).limbcount, ((shapeOf bits word).p.getD i 0).toNat * 2 ^ (64 * i) =
      2 ^ (bits.toNat + 1) - word.toNat := by
  rw [shapeOf_p]
  exact sum_limbs ((prime_lt_two_pow _ hodd).trans_le (Nat.pow_le_pow_right (by decide) shapeOf_limbcount_bounds.2))

/-- A partly used top limb has `TOPSHIFT` used bits (rule R102). -/
theorem shapeOf_modbits_split (htop : (shapeOf bits word).topshift ≠ 0) :
    64 * ((shapeOf bits word).limbcount - 1) + (shapeOf bits word).topshift = bits.toNat + 1 := by
  obtain ⟨hlo, hhi⟩ := shapeOf_limbcount_bounds (bits := bits) (word := word)
  rw [shapeOf_topshift] at htop ⊢
  omega

/-- With a partly used top limb, that limb lies under its mask (rule R102). -/
theorem shapeOf_top_le_topmask (hodd : word.toNat % 2 = 1) (htop : (shapeOf bits word).topshift ≠ 0) :
    ((shapeOf bits word).p.getD ((shapeOf bits word).limbcount - 1) 0).toNat ≤ (shapeOf bits word).topmask := by
  obtain ⟨-, hhi⟩ := shapeOf_limbcount_bounds (bits := bits) (word := word)
  rw [shapeOf_p, shapeOf_topmask]
  refine Nat.le_sub_one_of_lt (getD_limbs_lt (by omega) ?_)
  rw [shapeOf_modbits_split htop]
  exact prime_lt_two_pow _ hodd

/-! When `DERIVE` accepts (rule R101). -/

theorem derive_eq_ok {cfg : Config} (hodd : word.toNat % 2 = 1) (hlt : word.toNat < 2 ^ (bits.toNat + 1))
    (hlimbs : bits.toNat + 1 ≤ 64 * cfg.lmax) : derive cfg bits word = .ok (shapeOf bits word) := by
  have hcount := (ceilDiv_le_iff (b := 64) (by decide) cfg.lmax).mpr hlimbs
  rw [derive, if_neg (by omega), if_neg (by omega), if_neg (by omega)]

theorem derive_eq_error {cfg : Config}
    (h : word.toNat % 2 = 0 ∨ 2 ^ (bits.toNat + 1) ≤ word.toNat ∨ 64 * cfg.lmax < bits.toNat + 1) :
    derive cfg bits word = .error .invalidShape := by
  rw [derive]
  split_ifs with heven hcount hlarge
  case neg =>
    have hlimbs := (ceilDiv_le_iff (b := 64) (by decide) cfg.lmax).mp (Nat.le_of_not_lt hcount)
    omega
  all_goals rfl

/-! How `DERIVE` ends. -/

theorem exec_derive_of_ok {s : State} {sh : Shape} (h : derive s.cfg bits word = .ok sh) :
    exec (.derive bits word) s = .next ((s.install sh).respond 0) := by
  rw [show exec (.derive bits word) s = execDerive bits word s from rfl, execDerive, h, ok_bind, pure_eq_ok, commit_ok]

theorem exec_derive_of_error {s : State} {k : ErrorKind} (h : derive s.cfg bits word = .error k) :
    exec (.derive bits word) s = failed s 0x01 (errorCode k) := by
  rw [show exec (.derive bits word) s = execDerive bits word s from rfl, execDerive, h, error_bind, commit_error]
  rfl

end

/-- Settles O15: an accepted pair installs `shapeOf`, whose fields are those of rules R102 and R103; the three refusals of
rule R101 are the other pairs. -/
theorem deriveInstallsShapeOrFails : Obligations.DeriveInstallsShapeOrFails := by
  rintro s bits word _ rfl
  refine ⟨fun hodd hlt hlimbs => ?accepted, fun h => exec_derive_of_error (derive_eq_error h)⟩
  case accepted =>
    exact ⟨shapeOf bits word, exec_derive_of_ok (derive_eq_ok hodd hlt hlimbs), rfl, rfl, shapeOf_modbits,
      shapeOf_limbcount_bounds, shapeOf_bytecount_bounds, shapeOf_topshift, shapeOf_topmask, shapeOf_shiftcomp,
      shapeOf_topw1, shapeOf_p_length, shapeOf_sum_p hodd, shapeOf_top_le_topmask hodd⟩

end Sys2Proof.Machine
end

section
/-! The decoder and the encoder are inverse (rules R70 to R77), and the decoder agrees with the mask and match rows of the
opcode table (30_encoding.md, opening); from these the statements O1 to O4. -/

namespace Sys2Proof

/-- The decoder reads back the fields of every legal command (rules R72, R74, R77). -/
theorem decodeFields_fieldsOf {i : Instr} (hwf : wellFormed i = true) : decodeFields (fieldsOf i) = .ok i := by
  cases i
  case bufwr byte addr => exact (if_pos (of_decide_eq_true hwf)).trans (acceptFormat_eq_ok.mpr ⟨rfl, rfl⟩)
  all_goals exact acceptFormat_eq_ok.mpr ⟨rfl, rfl⟩

theorem decode_encode {i : Instr} (hwf : wellFormed i = true) : decode (encode i) = .ok i := by
  rw [decode, encode, fieldsOfCmd_cmdOfFields, decodeFields_fieldsOf hwf]

/-- Settles O1: the fields of a word put together are the fields it was put together from. -/
theorem decodeOfEncode : Obligations.DecodeOfEncode := fun _ => decode_encode

/-- Settles O2: what a format accepts has no other field than those read from it. -/
theorem encodeOfDecode : Obligations.EncodeOfDecode := fun _ _ h =>
  ⟨(eq_encode_of_decode h).1.symm, (eq_encode_of_decode h).2⟩

/-! The rows of the opcode table. -/

theorem selectsRow_iff {w : Cmd} {r : OpcodeRow} : selectsRow w r = true ↔ w &&& r.mask = r.pattern := beq_iff_eq

/-- Bits 127:120 of every command's word are its opcode (rule R71). -/
theorem opcode_encode (i : Instr) : (encode i).extractLsb' 120 8 = opcodeOf i := by
  change (fieldsOfCmd (encode i)).opcode = opcodeOf i
  rw [encode, fieldsOfCmd_cmdOfFields]
  cases i <;> rfl

/-- Every command has a row of its name with its opcode (rule R74). -/
theorem exists_row_of_instr (i : Instr) :
    ∃ r ∈ opcodeRows, r.pattern.extractLsb' 120 8 = opcodeOf i ∧ r.mnemonic = mnemonicOf i := by
  suffices h : (opcodeRows.any fun r =>
      r.pattern.extractLsb' 120 8 == opcodeOf i && r.mnemonic == mnemonicOf i) = true by
    simpa [List.any_eq_true] using h
  cases i <;> rfl

theorem mnemonic_nodup : (opcodeRows.map OpcodeRow.mnemonic).Nodup := by decide

/-- An accepted word selects the row named after the command read from it. -/
theorem selects_row_of_mnemonic {w : Cmd} {i : Instr} {r : OpcodeRow} (h : decode w = .ok i) (hr : r ∈ opcodeRows)
    (hname : mnemonicOf i = r.mnemonic) : w &&& r.mask = r.pattern := by
  obtain ⟨r', hr', hsel, hop⟩ := selects_of_decode h
  obtain ⟨r'', hr'', hop'', hname''⟩ := exists_row_of_instr i
  obtain rfl : r'' = r := List.inj_on_of_nodup_map mnemonic_nodup hr'' hr (hname''.trans hname)
  have hword : w.extractLsb' 120 8 = opcodeOf i := by rw [(eq_encode_of_decode h).1, opcode_encode]
  rwa [row_eq_of_opcode_eq hr'' hr' (hop''.trans (hword.symm.trans hop))]

/-- The mask of `BUFWR` leaves a byte of `imm32` (rule R77). -/
theorem lt_of_and_highBytes {byte : Imm32} (h : byte &&& 0xFFFFFF00 = 0) : byte.toNat < 256 := by
  have hmask : ∀ i < 32, 8 ≤ i → (0xFFFFFF00 : Imm32).getLsbD i = true := by decide
  refine Nat.lt_pow_two_of_testBit (n := 8) _ fun i hi => ?_
  rcases Nat.lt_or_ge i 32 with hlt | hge
  · have hbit := congrArg (BitVec.getLsbD · i) h
    rw [BitVec.getLsbD_and, hmask i hlt hi, Bool.and_true] at hbit
    exact hbit.trans BitVec.getLsbD_zero
  · exact BitVec.getLsbD_of_ge byte i hge

theorem byte_and_ones (x : Byte) : x &&& 255#8 = x := BitVec.and_allOnes
theorem imm32_and_ones (x : Imm32) : x &&& 4294967295#32 = x := BitVec.and_allOnes
theorem imm64_and_ones (x : Imm64) : x &&& 18446744073709551615#64 = x := BitVec.and_allOnes

/-- Fields that pass the mask and match test of a row are those of its command: its opcode stands in them, and the fields
its format does not use are 0 (rules R74, R76). -/
theorem decodeFields_of_selects (f : Fields) : ∀ r ∈ opcodeRows, f.and (fieldsOfCmd r.mask) = fieldsOfCmd r.pattern →
    ∃ i, decodeFields f = .ok i ∧ mnemonicOf i = r.mnemonic := by
  obtain ⟨opcode, rd, rs1, rs2, imm32, imm64⟩ := f
  simp only [opcodeRows, List.cons_append, List.nil_append, List.forall_mem_cons]
  refine ⟨?_, ?_, ?_, ?_, ?_, ?_, ?_, ?_, ?_, ?bufwr, ?_, ?_, ?_, ?_, ?_, ?_, ?_, ?_, ?_, ?_, ?_, ?_, by simp⟩
  all_goals
    intro h
    simp only [fieldsOfCmd, Fields.and, Fields.mk.injEq, BitVec.reduceExtractLsb', byte_and_ones, imm32_and_ones,
      imm64_and_ones, BitVec.and_zero] at h
  case bufwr =>
    obtain ⟨rfl, rfl, rfl, rfl, himm, -⟩ := h
    exact ⟨.bufwr imm32 imm64, (if_pos (lt_of_and_highBytes himm)).trans (acceptFormat_eq_ok.mpr ⟨rfl, rfl⟩), rfl⟩
  all_goals simp [decodeFields, acceptFormat, unusedFieldsZero, mnemonicOf, h]

/-- A word that selects a row decodes to that row's command. -/
theorem decode_of_selects_row {w : Cmd} {r : OpcodeRow} (hr : r ∈ opcodeRows) (h : w &&& r.mask = r.pattern) :
    ∃ i, decode w = .ok i ∧ mnemonicOf i = r.mnemonic :=
  decodeFields_of_selects _ r hr (by rw [← fieldsOfCmd_and, h])

theorem selectsRow_iff_decode {w : Cmd} {r : OpcodeRow} (hr : r ∈ opcodeRows) :
    selectsRow w r = true ↔ ∃ i, decode w = .ok i ∧ mnemonicOf i = r.mnemonic := by
  rw [selectsRow_iff]
  exact ⟨decode_of_selects_row hr, fun ⟨_, hdec, hname⟩ => selects_row_of_mnemonic hdec hr hname⟩

/-- Settles O3: the test of a row is the acceptance of its command, and an accepted word selects a row. -/
theorem decodeAgreesWithOpcodeTable : Obligations.DecodeAgreesWithOpcodeTable := by
  refine ⟨fun w r hr => selectsRow_iff_decode hr, fun w => ⟨fun ⟨e, he⟩ r hr => ?refused, fun hnone => ?selectsNone⟩⟩
  case refused =>
    refine Bool.eq_false_iff.mpr fun hsel => ?_
    obtain ⟨i, hi, -⟩ := (selectsRow_iff_decode hr).mp hsel
    rw [he] at hi
    cases hi
  case selectsNone =>
    cases hdec : decode w with
    | error e => exact ⟨e, rfl⟩
    | ok i =>
      obtain ⟨r, hr, hsel, -⟩ := selects_of_decode hdec
      exact absurd (selectsRow_iff.mpr hsel) (by rw [hnone r hr]; decide)

/-- Settles O4: the decoder run on the ten words. -/
theorem sampleWordsDecode : Obligations.SampleWordsDecode := by
  unfold Obligations.SampleWordsDecode
  decide

end Sys2Proof
end

section
/-! The machine (rules R20, R36, R39, R280 to R286, R310, R312): what one step and one command can do to each part of the
state, read off the effects of `Effect`, and that every step keeps the invariant; from these the statements O6 to O13. -/

namespace Sys2Proof.Machine

open Sys2Proof.Claim

/-! One step. -/

theorem step_of_empty_port {s : State} (h : s.port = []) : step s = .next s := by
  simp only [step, h]

theorem step_of_reset {s : State} {content : List Byte} {rest : List HostEvent} (h : s.port = .reset content :: rest) :
    step s = .next (resetEvent content s.takeEvent) := by
  simp only [step, h]

theorem step_of_decode_ok {s : State} {w : Cmd} {rest : List HostEvent} {i : Instr} (h : s.port = .command w :: rest)
    (hdec : decode w = .ok i) : step s = exec i s.takeEvent := by
  simp only [step, h, hdec]

/-- Settles O6: taking the event leaves the rest of the port. -/
theorem stepRunsDecodedCommand : Obligations.StepRunsDecodedCommand := by
  intro s w rest i hport hdec _
  rw [step_of_decode_ok hport hdec, State.takeEvent, hport, List.tail_cons]

/-! Reset. -/

/-- The content of `BUF` a reset event leaves: the bytes it carries (rules R39, R310). -/
theorem read_reset_content {content : List Byte} {size a : Nat} {b : Byte} (ha : a < size) (hb : content[a]? = some b) :
    Memory.read (Memory.writeBytes [] 0 (content.take size)) a = b := by
  have hlen : a < (content.take size).length := by
    rw [List.length_take]
    exact Nat.lt_min.mpr ⟨ha, (List.getElem?_eq_some_iff.mp hb).1⟩
  rw [Memory.read_writeBytes, if_pos ⟨Nat.zero_le a, by rwa [Nat.zero_add]⟩, Nat.sub_zero,
    List.getD_eq_getElem?_getD, List.getElem?_take_of_lt ha, hb, Option.getD_some]

theorem bound_reset_content (content : List Byte) (size : Nat) :
    ∀ c ∈ Memory.writeBytes [] 0 (content.take size), c.1 < size := by
  refine Memory.bound_writeBytes (by simp) ?_
  rw [Nat.zero_add]
  exact List.length_take_le size content

theorem wf_reset_content (content : List Byte) (size : Nat) : (Memory.writeBytes [] 0 (content.take size)).wf :=
  Memory.wf_writeBytes Memory.wf_nil 0 _

/-- Settles O7: the reset state, with the bytes of the event written into an empty `BUF`. -/
theorem resetEventGivesResetState : Obligations.ResetEventGivesResetState := by
  intro s content rest hport
  refine ⟨_, ?_, fun a b => read_reset_content, wf_reset_content content _, bound_reset_content content _⟩
  rw [step_of_reset hport]
  simp only [resetEvent, State.afterReset, State.takeEvent, hport, List.tail_cons]

theorem State.afterReset_elem (cfg : Config) (buf : Memory) (port : List HostEvent) (i : Nat) :
    (State.afterReset cfg buf port).elem i = none := by
  simp only [State.elem, State.afterReset_e, List.getD_eq_getElem?_getD, List.getElem?_replicate]
  split <;> rfl

theorem State.afterReset_status (cfg : Config) (buf : Memory) (port : List HostEvent) :
    (State.afterReset cfg buf port).status = 0 := State.status_of_no_shape rfl

theorem elemsOk_of_no_elems {s : State} (h : s.e = List.replicate s.cfg.nreg none) : s.ElemsOk := by
  refine ⟨by rw [h, List.length_replicate], ?_⟩
  cases s.shape with
  | none => exact fun c hc => List.eq_of_mem_replicate (h ▸ hc)
  | some sh =>
    intro c hc v hv
    rw [h] at hc
    rw [List.eq_of_mem_replicate hc] at hv
    cases hv

theorem State.afterReset_inv {cfg : Config} {buf : Memory} (port : List HostEvent) (hcfg : cfg.Ok) (hwf : buf.wf)
    (hbound : ∀ c ∈ buf, c.1 < cfg.bufsize) : (State.afterReset cfg buf port).Inv where
  cfg := hcfg
  shape := by intro sh h; cases h
  elems := elemsOk_of_no_elems rfl
  buf := ⟨hwf, hbound⟩
  record := ⟨Nat.zero_le _, fun _ => rfl⟩

/-- Settles O8: the fields of the reset state; the reference parameters lie in their ranges. -/
theorem resetSatisfiesInvariant : Obligations.ResetSatisfiesInvariant := by
  refine ⟨fun cfg buf port => ⟨⟨rfl, State.afterReset_elem cfg buf port, State.afterReset_status cfg buf port, rfl, rfl⟩,
    State.afterReset_inv port⟩, ?_, State.afterReset_status _ _ _, rfl, rfl⟩
  exact State.afterReset_inv [] (by decide) Memory.wf_nil (by simp)

/-! What every step keeps. -/

/-- The invariant speaks of no response, and of no event still to come. -/
theorem State.Inv.congr {s t : State} (h : s.Inv) (hcfg : t.cfg = s.cfg) (hshape : t.shape = s.shape) (he : t.e = s.e)
    (hbuf : t.buf = s.buf) (hrec : t.RecordOk) : t.Inv := by
  obtain ⟨cfg, shape, e, err, errop, buf, port, responses⟩ := t
  obtain rfl := hcfg
  obtain rfl := hshape
  obtain rfl := he
  obtain rfl := hbuf
  exact ⟨h.cfg, h.shape, h.elems, h.buf, hrec⟩

theorem errorCode_ne_zero (k : ErrorKind) : errorCode k ≠ 0 := by cases k <;> decide

theorem errorCode_toNat_le (k : ErrorKind) : (errorCode k).toNat ≤ 14 := by cases k <;> decide

theorem fail_recordOk {s : State} (h : s.RecordOk) (op : Byte) (k : ErrorKind) : (s.fail op k).RecordOk := by
  rw [State.RecordOk, State.fail_err, State.fail_errop]
  by_cases hs : s.err = 0
  · rw [if_pos hs, if_pos hs]
    exact ⟨errorCode_toNat_le k, fun h0 => absurd h0 (errorCode_ne_zero k)⟩
  · rw [if_neg hs, if_neg hs]
    exact h

theorem State.Inv.fail {s : State} (h : s.Inv) (op : Byte) (k : ErrorKind) : (s.fail op k).Inv :=
  h.congr rfl rfl rfl rfl (fail_recordOk h.record op k)

theorem State.Inv.respond {s : State} (h : s.Inv) (data : Limb) : (s.respond data).Inv :=
  h.congr rfl rfl rfl rfl h.record

theorem State.Inv.withPort {s : State} (h : s.Inv) (port : List HostEvent) : { s with port := port }.Inv :=
  h.congr rfl rfl rfl rfl h.record

theorem State.Inv.takeEvent {s : State} (h : s.Inv) : s.takeEvent.Inv := h.withPort s.port.tail

theorem State.Inv.clearErr {s : State} (h : s.Inv) : s.clearErr.Inv :=
  h.congr rfl rfl rfl rfl ⟨Nat.zero_le _, fun _ => rfl⟩

/-- The pairs `DERIVE` accepts, and what it computes of them (rule R101). -/
theorem derive_accepts {cfg : Config} {bits : Imm32} {word : Imm64} {sh : Shape} (h : derive cfg bits word = .ok sh) :
    sh = shapeOf bits word ∧ word.toNat % 2 = 1 ∧ word.toNat < 2 ^ (bits.toNat + 1) ∧
      ceilDiv (bits.toNat + 1) 64 ≤ cfg.lmax := by
  rw [derive] at h
  split_ifs at h with heven hlimbs hlarge
  exact ⟨(Except.ok.inj h).symm, by omega, by omega, by omega⟩

theorem Shape.derived_of_derive {cfg : Config} {bits : Imm32} {word : Imm64} {sh : Shape}
    (h : derive cfg bits word = .ok sh) : sh.Derived cfg ∧ sh.bits = bits ∧ sh.word = word := by
  obtain ⟨rfl, -⟩ := derive_accepts h
  exact ⟨h, rfl, rfl⟩

/-- A shape installed leaves no register with a value (rule R314). -/
theorem State.Inv.install {s : State} {bits : Imm32} {word : Imm64} {sh : Shape} (h : s.Inv)
    (hd : derive s.cfg bits word = .ok sh) : (s.install sh).Inv where
  cfg := h.cfg
  shape := by rintro sh' ⟨⟩; exact (Shape.derived_of_derive hd).1
  elems := elemsOk_of_no_elems rfl
  buf := h.buf
  record := h.record

theorem State.Inv.storeBytes {s : State} {addr : Nat} {bytes : List Byte} (h : s.Inv)
    (hb : addr + bytes.length ≤ s.cfg.bufsize) : (s.storeBytes addr bytes).Inv where
  cfg := h.cfg
  shape := h.shape
  elems := h.elems
  buf := ⟨Memory.wf_writeBytes h.buf.1 addr bytes, Memory.bound_writeBytes h.buf.2 hb⟩
  record := h.record

/-- A value below `2^W` written keeps the registers in their width (rule R26). -/
theorem State.Inv.setElem {s : State} {sh : Shape} {i v : Nat} (h : s.Inv) (hsh : s.shape = some sh)
    (hv : v < 2 ^ sh.width) : (s.setElem i v).Inv where
  cfg := h.cfg
  shape := h.shape
  elems := by
    obtain ⟨hlen, hold⟩ := h.elems
    refine ⟨by simpa using hlen, ?_⟩
    rw [State.setElem_shape, hsh]
    rw [hsh] at hold
    intro c hc w hw
    rcases List.mem_or_eq_of_mem_set hc with hc | rfl
    · exact hold c hc w hw
    · cases hw
      exact hv
  buf := h.buf
  record := h.record

/-- Every effect of a command keeps the invariant. -/
theorem Effect.inv {i : Instr} {s t : State} {data : Limb} (h : Effect i s t data) (hs : s.Inv) : t.Inv := by
  cases h with
  | quiet => exact hs
  | read data _ => exact hs
  | clear _ => exact hs.clearErr
  | install bits word sh _ hd => exact hs.install hd
  | store addr bytes _ hb => exact hs.storeBytes hb
  | write sh v hsh _ hv => exact hs.setElem hsh (hv (hs.shape sh hsh) hs.elems)

theorem exec_inv {i : Instr} {s t : State} (hs : s.Inv) (h : exec i s = .next t) : t.Inv := by
  rcases exec_cases i s with ⟨k, hfail⟩ | ⟨u, data, hdone, heff⟩
  · obtain rfl : s.fail (opcodeOf i) k = t := Host.Outcome.next.inj (hfail.symm.trans h)
    exact hs.fail _ k
  · obtain rfl : u.respond data = t := Host.Outcome.next.inj (hdone.symm.trans h)
    exact (heff.inv hs).respond data

theorem resetEvent_inv {s : State} (h : s.Inv) (content : List Byte) : (resetEvent content s).Inv :=
  State.Inv.congr (State.afterReset_inv s.port h.cfg (wf_reset_content content _) (bound_reset_content content _))
    rfl rfl rfl rfl ⟨Nat.zero_le _, fun _ => rfl⟩

/-- Settles O9: an event at a time; a command by its effect. -/
theorem stepKeepsInvariant : Obligations.StepKeepsInvariant := by
  intro s t hs h
  rcases hport : s.port with _ | ⟨⟨w⟩ | ⟨content⟩, rest⟩
  · obtain rfl := Host.Outcome.next.inj ((step_of_empty_port hport).symm.trans h)
    exact hs
  · cases hdec : decode w with
    | ok i => exact exec_inv hs.takeEvent ((step_of_decode_ok hport hdec).symm.trans h)
    | error e =>
      obtain rfl := Host.Outcome.next.inj ((step_of_decode_error hport ⟨e, hdec⟩).symm.trans h)
      exact (hs.withPort rest).fail _ .illegalCommand
  · obtain rfl := Host.Outcome.next.inj ((step_of_reset hport).symm.trans h)
    exact resetEvent_inv hs.takeEvent content

/-! What every command does. -/

theorem exec_has_next (i : Instr) (s : State) : ∃ t, exec i s = .next t := by
  rcases exec_cases i s with ⟨k, h⟩ | ⟨t, data, h, -⟩
  · exact ⟨_, h⟩
  · exact ⟨_, h⟩

/-- Settles O10: an event at a time, and every command has one of the outcomes of `exec_cases`. -/
theorem stepAlwaysHasNextState : Obligations.StepAlwaysHasNextState := by
  refine ⟨fun s => ?_, exec_has_next⟩
  rcases hport : s.port with _ | ⟨⟨w⟩ | ⟨content⟩, rest⟩
  · exact ⟨s, step_of_empty_port hport⟩
  · cases hdec : decode w with
    | ok i => rw [step_of_decode_ok hport hdec]; exact exec_has_next i _
    | error e => exact ⟨_, step_of_decode_error hport ⟨e, hdec⟩⟩
  · exact ⟨_, step_of_reset hport⟩

/-- No effect emits a response of its own. -/
theorem Effect.responses_eq {i : Instr} {s t : State} {data : Limb} (h : Effect i s t data) :
    t.responses = s.responses := by cases h <;> rfl

/-- Only the three commands that read answer with data (rule R36). -/
theorem Effect.data_eq_zero {i : Instr} {s t : State} {data : Limb} (h : Effect i s t data) (hi : ¬ Reads i) :
    data = 0 := by
  cases h
  case read hreads => exact absurd hreads hi
  all_goals rfl

theorem not_reads {i : Instr} (hcsr : ∀ c, i ≠ .rdcsr c) (hlimb : ∀ a k, i ≠ .getlimb a k) (hbyte : ∀ a, i ≠ .bufrd a) :
    ¬ Reads i := by
  rintro (⟨c, h⟩ | ⟨a, k, h⟩ | ⟨a, h⟩)
  · exact hcsr c h
  · exact hlimb a k h
  · exact hbyte a h

/-- One more response is one more word, with the code above the data (rule R81). -/
theorem responseWords_of_responses {s t : State} {r : Response} (h : t.responses = r :: s.responses) :
    ∃ w : BitVec 72, t.responseWords = w :: s.responseWords ∧ w.extractLsb' 64 8 = r.code ∧ w.extractLsb' 0 64 = r.data :=
  ⟨r.word, by rw [State.responseWords, h]; rfl, r.word_code, r.word_data⟩

/-- Settles O11: the response of a failure, and that of an effect. -/
theorem commandEmitsOneResponse : Obligations.CommandEmitsOneResponse := by
  intro i s t h
  rcases exec_cases i s with ⟨k, hfail⟩ | ⟨u, data, hdone, heff⟩
  · obtain rfl : s.fail (opcodeOf i) k = t := Host.Outcome.next.inj (hfail.symm.trans h)
    exact ⟨⟨errorCode k, 0⟩, rfl, responseWords_of_responses rfl, fun _ => rfl, fun _ _ _ => rfl⟩
  · obtain rfl : u.respond data = t := Host.Outcome.next.inj (hdone.symm.trans h)
    have hresp : (u.respond data).responses = ⟨0, data⟩ :: s.responses := by
      rw [State.respond_responses, heff.responses_eq]
    exact ⟨⟨0, data⟩, hresp, responseWords_of_responses hresp, fun h0 => absurd rfl h0,
      fun hcsr hlimb hbyte => heff.data_eq_zero (not_reads hcsr hlimb hbyte)⟩

/-- A command that fails does what `failed` says, with its own opcode (rule R280). -/
theorem fail_eq_failed (s : State) (op : Byte) (k : ErrorKind) : .next (s.fail op k) = failed s op (errorCode k) := rfl

/-- Settles O12: an effect answers `OK`, so an error code is that of a failure. -/
theorem failureChangesOnlyErrorRecord : Obligations.FailureChangesOnlyErrorRecord := by
  intro i s t r h hresp hcode
  rcases exec_cases i s with ⟨k, hfail⟩ | ⟨u, data, hdone, heff⟩
  · obtain rfl : s.fail (opcodeOf i) k = t := Host.Outcome.next.inj (hfail.symm.trans h)
    obtain rfl : ⟨errorCode k, 0⟩ = r := (List.cons.inj hresp).1
    exact ⟨errorCode_toNat_le k, by rw [hfail, opcode_encode, fail_eq_failed]⟩
  · obtain rfl : u.respond data = t := Host.Outcome.next.inj (hdone.symm.trans h)
    obtain rfl : ⟨0, data⟩ = r := (List.cons.inj hresp).1
    exact absurd rfl hcode

/-! Which part of the state an effect writes. -/

section
variable {i : Instr} {s t : State} {data : Limb}

theorem Effect.cfg_eq (h : Effect i s t data) : t.cfg = s.cfg := by cases h <;> rfl

theorem Effect.port_eq (h : Effect i s t data) : t.port = s.port := by cases h <;> rfl

theorem Effect.shape_eq (h : Effect i s t data) (hi : ∀ b w, i ≠ .derive b w) : t.shape = s.shape := by
  cases h
  case install bits word sh hder _ => exact absurd hder (hi bits word)
  all_goals rfl

theorem Effect.buf_eq (h : Effect i s t data) (hi : ¬ Stores i) : t.buf = s.buf := by
  cases h
  case store hstores _ => exact absurd hstores hi
  all_goals rfl

theorem Effect.errop_eq (h : Effect i s t data) (hi : i ≠ .clrerr) : t.errop = s.errop := by
  cases h
  case clear hclr => exact absurd hclr hi
  all_goals rfl

/-- A register changes by `DERIVE`, or it is the destination and was written. -/
theorem Effect.elem_eq (h : Effect i s t data) {j : Nat} (hj : t.elem j ≠ s.elem j) :
    (∃ b w, i = .derive b w) ∨ (j = (fieldsOf i).rd.toNat ∧ ∃ v, t.elem j = some v) := by
  cases h
  case install bits word sh hder _ => exact .inl ⟨bits, word, hder⟩
  case write sh v _ _ _ =>
    refine .inr ?_
    rcases Nat.lt_or_ge (fieldsOf i).rd.toNat s.e.length with hlt | hge
    · rw [State.elem_setElem _ _ _ _ hlt] at hj ⊢
      split_ifs at hj ⊢ with hrd
      · exact ⟨hrd, v, rfl⟩
      · exact absurd rfl hj
    · rw [State.setElem_of_length_le _ _ _ hge] at hj
      exact absurd rfl hj
  all_goals exact absurd rfl hj

end

/-- Settles O13: a failure changes only the error record, and an effect only its own part. -/
theorem onlyNamedCommandsWriteEachPart : Obligations.OnlyNamedCommandsWriteEachPart := by
  intro i s t h
  rcases exec_cases i s with ⟨k, hfail⟩ | ⟨u, data, hdone, heff⟩
  · obtain rfl : s.fail (opcodeOf i) k = t := Host.Outcome.next.inj (hfail.symm.trans h)
    refine ⟨fun hne => absurd rfl hne, fun hne => absurd rfl hne, fun j hne => absurd rfl hne, fun herr _ => ?_, rfl, rfl⟩
    exact ⟨State.fail_err_of_set herr _ k, by rw [State.fail_errop, if_neg herr]⟩
  · obtain rfl : u.respond data = t := Host.Outcome.next.inj (hdone.symm.trans h)
    refine ⟨fun hne => ?shape, fun hne => ?buf, fun j => heff.elem_eq, fun _ hclr => ⟨heff.err_eq hclr, heff.errop_eq hclr⟩,
      heff.cfg_eq, heff.port_eq⟩
    case shape =>
      by_contra hi
      exact hne (heff.shape_eq fun b w hder => hi ⟨b, w, hder⟩)
    case buf =>
      by_contra hi
      exact hne (heff.buf_eq hi)

end Sys2Proof.Machine
end

section
/-! The constants of an accepted shape (rules R7, R12, R102 to R107): the size constants, the exponent constants, the run
length and its chain schedule; from these the statements O16 to O19. -/

namespace Sys2Proof.Machine

/-! Bit length (rule R8). -/

theorem bitLength_eq_size (v : Nat) : bitLength v = v.size := by
  rw [bitLength]
  split_ifs with h
  · rw [h, Nat.size_zero]
  · have hlow := (Nat.lt_size (m := v.log2) (n := v)).mpr (Nat.log2_self_le h)
    have hhigh := (Nat.size_le (m := v) (n := v.log2 + 1)).mpr Nat.lt_log2_self
    omega

theorem bitLength_le_iff {v k : Nat} : bitLength v ≤ k ↔ v < 2 ^ k := by
  rw [bitLength_eq_size, Nat.size_le]

theorem lt_bitLength_iff {v k : Nat} : k < bitLength v ↔ 2 ^ k ≤ v := by
  rw [bitLength_eq_size, Nat.lt_size]

/-! What `DERIVE` accepts, as facts about the shape in force. -/

section
variable {cfg : Config} {sh : Shape}

theorem Shape.Derived.word_odd (h : sh.Derived cfg) : sh.word.toNat % 2 = 1 := (derive_accepts h).2.1

theorem Shape.Derived.modbits_eq (h : sh.Derived cfg) : sh.modbits = sh.bits.toNat + 1 := by rw [h.eq]; rfl

theorem Shape.Derived.limbcount_eq (h : sh.Derived cfg) : sh.limbcount = ceilDiv sh.modbits 64 := by rw [h.eq]; rfl

theorem Shape.Derived.bytecount_eq (h : sh.Derived cfg) : sh.bytecount = ceilDiv sh.modbits 8 := by rw [h.eq]; rfl

theorem Shape.Derived.ls_eq (h : sh.Derived cfg) : sh.ls = bitLength (sh.word.toNat + 1) := by rw [h.eq]; rfl

theorem Shape.Derived.wlow_eq (h : sh.Derived cfg) : sh.wlow = 2 ^ sh.ls - (sh.word.toNat + 2) := by rw [h.eq]; rfl

theorem Shape.Derived.m_eq (h : sh.Derived cfg) : sh.m = sh.modbits - sh.ls := by rw [h.eq]; rfl

theorem Shape.Derived.chain_eq (h : sh.Derived cfg) : sh.chain = chainOf sh.m := by rw [h.eq]; rfl

theorem Shape.Derived.word_lt_top (h : sh.Derived cfg) : sh.word.toNat < sh.top := by
  rw [Shape.top, h.modbits_eq]
  exact (derive_accepts h).2.2.1

theorem Shape.Derived.limbcount_le (h : sh.Derived cfg) : sh.limbcount ≤ cfg.lmax := by
  rw [h.limbcount_eq, h.modbits_eq]
  exact (derive_accepts h).2.2.2

theorem Shape.Derived.modbits_le (h : sh.Derived cfg) : sh.modbits ≤ 64 * cfg.lmax :=
  (ceilDiv_le_iff (by decide) _).mp (h.limbcount_eq ▸ h.limbcount_le)

/-- `T` fits in the register one bit further than a register value (rules R12, R102). -/
theorem Shape.Derived.modbits_le_width (h : sh.Derived cfg) : sh.modbits ≤ sh.width := by
  rw [Shape.width, h.limbcount_eq]
  exact (ceilDiv_le_iff (by decide) _).mp le_rfl

theorem Shape.Derived.top_le (h : sh.Derived cfg) : sh.top ≤ 2 ^ sh.width :=
  Nat.pow_le_pow_right (by decide) h.modbits_le_width

theorem Shape.Derived.prime_add_word (h : sh.Derived cfg) : sh.prime + sh.word.toNat = sh.top :=
  Nat.sub_add_cancel h.word_lt_top.le

theorem Shape.Derived.prime_pos (h : sh.Derived cfg) : 0 < sh.prime := Nat.sub_pos_of_lt h.word_lt_top

/-! The exponent constants (rules R104, R105). -/

theorem Shape.Derived.word_lt_two_pow_ls (h : sh.Derived cfg) : sh.word.toNat + 1 < 2 ^ sh.ls :=
  bitLength_le_iff.mp h.ls_eq.ge

theorem Shape.Derived.two_le_ls (h : sh.Derived cfg) : 2 ≤ sh.ls := by
  have hodd := h.word_odd
  rw [h.ls_eq]
  exact lt_bitLength_iff.mpr (show 2 ^ 1 ≤ sh.word.toNat + 1 by omega)

theorem Shape.Derived.two_pow_ls_le_word (h : sh.Derived cfg) : 2 ^ (sh.ls - 1) ≤ sh.word.toNat + 1 := by
  have hls := h.two_le_ls
  exact lt_bitLength_iff.mp (by rw [← h.ls_eq]; omega)

theorem Shape.Derived.wlow_add_word (h : sh.Derived cfg) : sh.wlow + (sh.word.toNat + 2) = 2 ^ sh.ls := by
  rw [h.wlow_eq]
  exact Nat.sub_add_cancel h.word_lt_two_pow_ls

/-- The exponent `p - 2` in binary: a run of `n - ls` ones, then `w` (rule R105). -/
theorem Shape.Derived.exponent_identity (h : sh.Derived cfg) (hls : sh.ls ≤ sh.modbits) :
    sh.prime - 2 = (2 ^ (sh.modbits - sh.ls) - 1) * 2 ^ sh.ls + sh.wlow := by
  have hw := h.wlow_add_word
  have hp := h.prime_add_word
  have hle : 2 ^ sh.ls ≤ sh.top := Nat.pow_le_pow_right (by decide) hls
  have hrun : (2 ^ (sh.modbits - sh.ls) - 1) * 2 ^ sh.ls = sh.top - 2 ^ sh.ls := by
    rw [Nat.sub_one_mul, ← Nat.pow_add, Nat.sub_add_cancel hls, Shape.top]
  omega

/-! The run length (rule R106). -/

theorem Shape.Derived.invOk_iff (h : sh.Derived cfg) : sh.invOk = true ↔ sh.ls + 1 ≤ sh.modbits := by
  rw [h.invOk_eq, decide_eq_true_iff]

theorem Shape.Derived.m_add_ls (h : sh.Derived cfg) (hinv : sh.invOk = true) : sh.m + sh.ls = sh.modbits := by
  have hls := h.invOk_iff.mp hinv
  rw [h.m_eq]
  omega

theorem Shape.Derived.one_le_m (h : sh.Derived cfg) (hinv : sh.invOk = true) : 1 ≤ sh.m := by
  have hls := h.invOk_iff.mp hinv
  rw [h.m_eq]
  omega

theorem Shape.Derived.m_eq_zero (h : sh.Derived cfg) (hinv : sh.invOk = false) : sh.m = 0 := by
  have hls : ¬ sh.ls + 1 ≤ sh.modbits := fun hls => by simp [h.invOk_iff.mpr hls] at hinv
  rw [h.m_eq]
  omega

/-- A regular word is too short to leave no run of ones: `c + 1 < 2^(n-1)` (rule R106). -/
theorem Shape.Regular.invOk (hreg : sh.Regular) (h : sh.Derived cfg) (hn : 3 ≤ sh.modbits) : sh.invOk = true := by
  obtain ⟨k, hk⟩ : ∃ k, sh.modbits = k + 3 := ⟨sh.modbits - 3, by omega⟩
  rw [h.invOk_iff, h.ls_eq, hk]
  refine Nat.succ_le_succ (bitLength_le_iff.mpr ?_)
  by_contra hlarge
  have htop : sh.top = 2 * 2 ^ (k + 2) := by rw [Shape.top, hk]; ring
  have hfour : 4 ≤ 2 ^ (k + 2) := by rw [Nat.pow_add]; exact Nat.le_mul_of_pos_left 4 (Nat.two_pow_pos k)
  have hsq : 2 ^ (k + 2) * 2 ^ (k + 2) ≤ (sh.word.toNat + 1) * (sh.word.toNat + 1) :=
    Nat.mul_le_mul (by omega) (by omega)
  rw [Shape.Regular, htop] at hreg
  nlinarith

end

/-! The chain schedule (rule R107). -/

theorem chainDown_of_le_one {k : Nat} (hk : k ≤ 1) (fuel : Nat) : chainDown fuel k = [] := by
  cases fuel with
  | zero => rfl
  | succ fuel => rw [chainDown, if_pos hk]

/-- The bound on the rounds is never met: every round lowers the count. -/
theorem chainDown_eq_of_le {fuel fuel' k : Nat} (h : k ≤ fuel) (h' : k ≤ fuel') :
    chainDown fuel k = chainDown fuel' k := by
  induction fuel generalizing fuel' k with
  | zero => rw [chainDown_of_le_one (by omega), chainDown_of_le_one (by omega)]
  | succ fuel ih =>
    by_cases hk : k ≤ 1
    · rw [chainDown_of_le_one hk, chainDown_of_le_one hk]
    · obtain ⟨fuel', rfl⟩ : ∃ f, fuel' = f + 1 := ⟨fuel' - 1, by omega⟩
      simp only [chainDown, if_neg hk]
      rw [ih (k := k / 5) (fuel' := fuel') (by omega) (by omega), ih (k := k / 3) (fuel' := fuel') (by omega) (by omega),
        ih (k := k / 2) (fuel' := fuel') (by omega) (by omega), ih (k := k - 1) (fuel' := fuel') (by omega) (by omega)]

theorem reverse_chainDown {fuel k : Nat} (h : k ≤ fuel) : (chainDown fuel k).reverse = chainOf k := by
  rw [chainOf, chainDown_eq_of_le h le_rfl]

theorem chainOf_of_le_one {m : Nat} (h : m ≤ 1) : chainOf m = [] := by
  rw [chainOf, chainDown_of_le_one h, List.reverse_nil]

/-- The schedule's last entry is the first the loop finds (rule R107). -/
theorem chainOf_of_one_lt {m : Nat} (h : 1 < m) : chainOf m =
    if m % 5 = 0 then chainOf (m / 5) ++ [Factor.five]
    else if m % 3 = 0 then chainOf (m / 3) ++ [Factor.three]
    else if m % 2 = 0 then chainOf (m / 2) ++ [Factor.two]
    else chainOf (m - 1) ++ [Factor.one] := by
  obtain ⟨fuel, rfl⟩ : ∃ fuel, m = fuel + 1 := ⟨m - 1, by omega⟩
  conv_lhs => rw [chainOf, chainDown, if_neg (by omega)]
  split_ifs
  all_goals rw [List.reverse_cons, reverse_chainDown (by omega)]

/-- The tracker after a schedule, from 1 (rule R223). -/
def trackerOf (fs : List Factor) : Nat := fs.foldl (fun h f => trackerAfter f h) 1

theorem trackerOf_append_singleton (fs : List Factor) (f : Factor) : trackerOf (fs ++ [f]) = trackerAfter f (trackerOf fs) := by
  rw [trackerOf, List.foldl_append]
  rfl

/-- The schedule takes the tracker from 1 to `m` (rule R107). -/
theorem trackerOf_chainOf {m : Nat} (h : 1 ≤ m) : trackerOf (chainOf m) = m := by
  induction m using Nat.strong_induction_on with
  | _ m ih =>
    rcases Nat.eq_or_lt_of_le h with rfl | hlt
    · rw [chainOf_of_le_one le_rfl]
      rfl
    · rw [chainOf_of_one_lt hlt]
      split_ifs with h5 h3 h2
      all_goals
        rw [trackerOf_append_singleton, ih _ (by omega) (by omega)]
        simp only [trackerAfter]
        omega

theorem log_two_div_lt {m f : Nat} (hf : 2 ≤ f) (hq : 1 ≤ m / f) : Nat.log 2 (m / f) < Nat.log 2 m := by
  have htwice : m / f * 2 ≤ m := (Nat.mul_le_mul_left _ hf).trans (Nat.div_mul_le_self m f)
  calc Nat.log 2 (m / f) < Nat.log 2 (m / f * 2) := by rw [Nat.log_mul_base (by decide) (by omega)]; exact Nat.lt_succ_self _
    _ ≤ Nat.log 2 m := Nat.log_mono_right htwice

/-- A unit step is followed by a division, so the schedule has at most two entries for each bit of `m` after the first, and
one less for an even `m` (rule R7). -/
theorem length_chainOf_bounds {m : Nat} (h : 1 ≤ m) :
    (chainOf m).length ≤ 2 * Nat.log 2 m ∧ (1 < m → m % 2 = 0 → (chainOf m).length < 2 * Nat.log 2 m) := by
  induction m using Nat.strong_induction_on with
  | _ m ih =>
    rcases Nat.eq_or_lt_of_le h with rfl | hlt
    · simp [chainOf_of_le_one]
    · have division : ∀ f e, 2 ≤ f → 1 ≤ m / f → (chainOf (m / f) ++ [e]).length < 2 * Nat.log 2 m := fun f e hf hq => by
        have hlen := (ih (m / f) (Nat.div_lt_self (by omega) hf) hq).1
        have hlog := log_two_div_lt hf hq
        rw [List.length_append, List.length_singleton]
        omega
      rw [chainOf_of_one_lt hlt]
      split_ifs with h5 h3 h2
      · exact ⟨(division 5 _ (by decide) (by omega)).le, fun _ _ => division 5 _ (by decide) (by omega)⟩
      · exact ⟨(division 3 _ (by decide) (by omega)).le, fun _ _ => division 3 _ (by decide) (by omega)⟩
      · exact ⟨(division 2 _ (by decide) (by omega)).le, fun _ _ => division 2 _ (by decide) (by omega)⟩
      · have hlen := (ih (m - 1) (by omega) (by omega)).2 (by omega) (by omega)
        have hlog : Nat.log 2 (m - 1) ≤ Nat.log 2 m := Nat.log_mono_right (Nat.sub_le m 1)
        rw [List.length_append, List.length_singleton]
        exact ⟨by omega, fun _ heven => absurd heven h2⟩

theorem length_chainOf_le {m : Nat} (h : 1 ≤ m) : (chainOf m).length ≤ 2 * Nat.log 2 m := (length_chainOf_bounds h).1

/-- The bound of rule R7 for the largest `LMAX`. -/
theorem length_chainOf_le_of_le_2048 {m : Nat} (h : m ≤ 2048) : (chainOf m).length ≤ 22 := by
  rcases Nat.eq_zero_or_pos m with rfl | hpos
  · simp [chainOf_of_le_one]
  · have hlog : Nat.log 2 m < 12 := Nat.log_lt_of_lt_pow (by omega) (by omega)
    have hlen := length_chainOf_le hpos
    omega

/-! The statements. -/

/-- Settles O16: `LS` is a bit length, and `WLOW` what is missing to its power of two. -/
theorem exponentConstants : Obligations.ExponentConstants := by
  intro cfg bits word sh hder
  obtain ⟨h, -, rfl⟩ := Shape.derived_of_derive hder
  have hw := h.wlow_add_word
  exact ⟨⟨h.two_pow_ls_le_word, h.word_lt_two_pow_ls⟩, hw, by omega, h.exponent_identity⟩

/-- Settles O17: the fields of the shape block, and the bit length of a regular word. -/
theorem runLengthAndInvOk : Obligations.RunLengthAndInvOk := by
  intro cfg bits word sh hder
  obtain ⟨h, -, -⟩ := Shape.derived_of_derive hder
  refine ⟨h.invOk_iff, fun hinv => ⟨h.m_add_ls hinv, h.one_le_m hinv⟩, fun hinv => ?_, fun hreg => hreg.invOk h⟩
  have hm := h.m_eq_zero hinv
  exact ⟨hm, by rw [h.chain_eq, hm, chainOf_of_le_one (by decide)]⟩

/-- Settles O18: the recursion of the schedule, and what follows from it by induction on the run length. -/
theorem chainScheduleReachesRunLength : Obligations.ChainScheduleReachesRunLength := by
  refine ⟨fun cfg bits word sh hder => ?_, fun m => trackerOf_chainOf, fun m => chainOf_of_le_one,
    fun m => chainOf_of_one_lt, fun m => length_chainOf_le, fun m => length_chainOf_le_of_le_2048⟩
  obtain ⟨h, -, -⟩ := Shape.derived_of_derive hder
  refine ⟨h.chain_eq, by rw [h.chainlen_eq, h.chain_eq], fun hinv => ?_⟩
  rw [h.chain_eq, ← h.m_eq]
  exact trackerOf_chainOf (h.one_le_m hinv)

section
variable {cfg : Config} {sh : Shape}

/-- The largest `LMAX` is 32 limbs of 64 bits (rule R6). -/
theorem Shape.Derived.modbits_le_2048 (h : sh.Derived cfg) (hcfg : cfg.Ok) : sh.modbits ≤ 2048 := by
  have hle := h.modbits_le
  have hmax := hcfg.1.2
  omega

theorem Shape.Derived.ls_le (h : sh.Derived cfg) : sh.ls ≤ 65 := by
  have hword := sh.word.isLt
  rw [h.ls_eq, bitLength_le_iff]
  omega

/-- `w` is odd and has no more bits than the word (rule R104). -/
theorem Shape.Derived.wlow_bounds (h : sh.Derived cfg) : 1 ≤ sh.wlow ∧ sh.wlow < 2 ^ 64 := by
  obtain ⟨k, hk⟩ : ∃ k, sh.ls = k + 2 := ⟨sh.ls - 2, by have := h.two_le_ls; omega⟩
  have hsum := h.wlow_add_word
  have hlow := h.two_pow_ls_le_word
  have hodd := h.word_odd
  have hword := sh.word.isLt
  rw [hk] at hsum hlow
  rw [show k + 2 - 1 = k + 1 from rfl, Nat.pow_succ] at hlow
  rw [Nat.pow_succ, Nat.pow_succ] at hsum
  omega

end

/-- Settles O19: `n ≤ 2048` bounds the size constants, and the schedule's length through the run length. -/
theorem shapeValuesFitTheirCsrs : Obligations.ShapeValuesFitTheirCsrs := by
  intro cfg bits word sh hcfg hder
  obtain ⟨h, -, -⟩ := Shape.derived_of_derive hder
  have hn := h.modbits_le_2048 hcfg
  have hlimbs : sh.limbcount ≤ 32 := h.limbcount_le.trans hcfg.1.2
  have hbytes : sh.bytecount ≤ 256 := by
    rw [h.bytecount_eq]
    exact (ceilDiv_le_iff (by decide) _).mpr hn
  have hshift : sh.topshift < 64 := by rw [h.eq]; exact Nat.mod_lt _ (by decide)
  have hmask : sh.topmask < 2 ^ 63 := by
    have hpow : 2 ^ sh.topshift ≤ 2 ^ 63 := Nat.pow_le_pow_right (by decide) (by omega)
    have heq : sh.topmask = 2 ^ sh.topshift - 1 := by rw [h.eq]; rfl
    have hpos := Nat.two_pow_pos sh.topshift
    omega
  have hcomp : sh.shiftcomp ≤ 64 := by rw [h.eq]; exact Nat.sub_le _ _
  have hm : sh.m ≤ 2048 := by rw [h.m_eq]; omega
  have hchain : sh.chain.length ≤ 22 := by rw [h.chain_eq]; exact length_chainOf_le_of_le_2048 hm
  have hp : sh.p.length = sh.limbcount := by rw [h.p_eq]; simp [limbs]
  have hlen := h.chainlen_eq
  exact ⟨by omega, by omega, by omega, hshift, hmask, by omega, ⟨h.two_le_ls, h.ls_le⟩, h.wlow_bounds, by omega, by omega,
    hlen, by omega, by omega⟩

end Sys2Proof.Machine
end

section
/-! How a command ends: the checks that pass and those that fail, in the order of rule R283, for the commands
`E[d] <- f(E[a])` and `E[d] <- f(E[a], E[b])` at once and for the others one by one; from these the statements on element
movement (O22 to O32), and O33 to O35 and O50. -/

namespace Sys2Proof.Machine

open Sys2Proof.Claim

/-! Checks that pass, and checks that fail. -/

theorem require_of {p : Prop} [Decidable p] (h : p) (k : ErrorKind) : require (decide p) k = .ok () := by
  rw [decide_eq_true h, require_true]

theorem require_of_not {p : Prop} [Decidable p] (h : ¬ p) (k : ErrorKind) : require (decide p) k = .error k := by
  rw [decide_eq_false h, require_false]

section
variable {s : State} {sh : Shape} {rs : List Reg}

theorem State.needShape_of_some (h : s.shape = some sh) : s.needShape = .ok sh := State.needShape_eq_ok.mpr h

theorem State.checkRegs_of_lt (h : ∀ r ∈ rs, r.toNat < s.cfg.nreg) : s.checkRegs rs = .ok () :=
  State.checkRegs_eq_ok.mpr h

theorem State.checkRegs_of_le {r : Reg} (hr : r ∈ rs) (h : s.cfg.nreg ≤ r.toNat) :
    s.checkRegs rs = .error .badRegister := State.checkRegs_eq_error.mpr ⟨⟨r, hr, h⟩, rfl⟩

theorem State.checkRange_of_le {addr len : Nat} (h : addr + len ≤ s.cfg.bufsize) : s.checkRange addr len = .ok () :=
  State.checkRange_eq_ok.mpr h

theorem State.checkRange_of_lt {addr len : Nat} (h : s.cfg.bufsize < addr + len) :
    s.checkRange addr len = .error .bufferRange := require_of_not (Nat.not_le_of_gt h) _

theorem State.readElem_of_some {i v : Nat} (h : s.elem i = some v) : s.readElem i = .ok v := State.readElem_eq_ok.mpr h

theorem State.readElem_of_none {i : Nat} (h : s.elem i = none) : s.readElem i = .error .uninit :=
  State.readElem_eq_error.mpr ⟨h, rfl⟩

end

/-! How a command ends. -/

/-- How a command that computes a value for `E[d]` ends: it writes the value, or fails with its error kind. -/
def ended (s : State) (op : Byte) (d : Reg) (r : Except ErrorKind Nat) : Out :=
  match r with
  | .ok v => wrote s d v
  | .error k => failed s op (errorCode k)

@[simp] theorem ended_ok (s : State) (op : Byte) (d : Reg) (v : Nat) : ended s op d (.ok v) = wrote s d v := rfl

@[simp] theorem ended_error (s : State) (op : Byte) (d : Reg) (k : ErrorKind) :
    ended s op d (.error k) = failed s op (errorCode k) := rfl

theorem commit_write (i : Instr) (s : State) (d : Reg) (r : Except ErrorKind Nat) :
    commit i s (r >>= fun v => pure (s.setElem d.toNat v, 0)) = ended s (opcodeOf i) d r := by
  cases r <;> rfl

theorem commit_failed (i : Instr) (s : State) (k : ErrorKind) :
    commit i s (.error k) = failed s (opcodeOf i) (errorCode k) := rfl

/-- The first check of the commands that need a shape (rules R282, R283). -/
theorem commit_of_no_shape {s : State} (h : s.shape = none) (i : Instr) (g : Shape → Except ErrorKind (State × Limb)) :
    commit i s (s.needShape >>= g) = failed s (opcodeOf i) 6 := by
  rw [State.needShape_eq_error.mpr ⟨h, rfl⟩, error_bind, commit_failed]
  rfl

section
variable {s : State} {sh : Shape} {d a b : Reg} (i : Instr)

theorem commit_unaryElem {x : Nat} (f : Shape → Nat → Except ErrorKind Nat) (h : Ready s sh [d, a])
    (hx : s.elem a.toNat = some x) : commit i s (unaryElem d a s f) = ended s (opcodeOf i) d (f sh x) := by
  rw [← commit_write, unaryElem, State.needShape_of_some h.1, ok_bind, State.checkRegs_of_lt h.2, ok_bind,
    State.readElem_of_some hx, ok_bind]

theorem commit_unaryElem_badRegister (f : Shape → Nat → Except ErrorKind Nat) (hsh : s.shape = some sh)
    (h : s.cfg.nreg ≤ d.toNat ∨ s.cfg.nreg ≤ a.toNat) : commit i s (unaryElem d a s f) = failed s (opcodeOf i) 7 := by
  have hregs : s.checkRegs [d, a] = .error .badRegister := State.checkRegs_eq_error.mpr ⟨by simpa using h, rfl⟩
  rw [unaryElem, State.needShape_of_some hsh, ok_bind, hregs, error_bind, commit_failed]
  rfl

theorem commit_unaryElem_uninit (f : Shape → Nat → Except ErrorKind Nat) (h : Ready s sh [d, a])
    (hx : s.elem a.toNat = none) : commit i s (unaryElem d a s f) = failed s (opcodeOf i) 8 := by
  rw [unaryElem, State.needShape_of_some h.1, ok_bind, State.checkRegs_of_lt h.2, ok_bind, State.readElem_of_none hx,
    error_bind, commit_failed]
  rfl

theorem commit_binaryElem {x y : Nat} (f : Shape → Nat → Nat → Except ErrorKind Nat) (h : Ready s sh [d, a, b])
    (hx : s.elem a.toNat = some x) (hy : s.elem b.toNat = some y) :
    commit i s (binaryElem d a b s f) = ended s (opcodeOf i) d (f sh x y) := by
  rw [← commit_write, binaryElem, State.needShape_of_some h.1, ok_bind, State.checkRegs_of_lt h.2, ok_bind,
    State.readElem_of_some hx, ok_bind, State.readElem_of_some hy, ok_bind]

theorem commit_binaryElem_badRegister (f : Shape → Nat → Nat → Except ErrorKind Nat) (hsh : s.shape = some sh)
    (h : s.cfg.nreg ≤ d.toNat ∨ s.cfg.nreg ≤ a.toNat ∨ s.cfg.nreg ≤ b.toNat) :
    commit i s (binaryElem d a b s f) = failed s (opcodeOf i) 7 := by
  have hregs : s.checkRegs [d, a, b] = .error .badRegister := State.checkRegs_eq_error.mpr ⟨by simpa using h, rfl⟩
  rw [binaryElem, State.needShape_of_some hsh, ok_bind, hregs, error_bind, commit_failed]
  rfl

theorem commit_binaryElem_uninit (f : Shape → Nat → Nat → Except ErrorKind Nat) (h : Ready s sh [d, a, b])
    (hxy : s.elem a.toNat = none ∨ s.elem b.toNat = none) :
    commit i s (binaryElem d a b s f) = failed s (opcodeOf i) 8 := by
  rw [binaryElem, State.needShape_of_some h.1, ok_bind, State.checkRegs_of_lt h.2, ok_bind]
  cases hx : s.elem a.toNat with
  | none => rw [State.readElem_of_none hx]; rfl
  | some x =>
    have hy : s.elem b.toNat = none := hxy.resolve_left (by simp [hx])
    rw [State.readElem_of_some hx, ok_bind, State.readElem_of_none hy]
    rfl

end

end Sys2Proof.Machine

/-! Registers named by a command. -/

namespace Sys2Proof.Claim

open Sys2Proof.Machine

variable {s t : State} {sh : Shape} {rs rs' : List Reg}

theorem Ready.mono (h : Ready s sh rs) (hsub : rs' ⊆ rs) : Ready s sh rs' := ⟨h.1, fun r hr => h.2 r (hsub hr)⟩

/-- Registers in the file stay so while shape and parameters do. -/
theorem Ready.congr (h : Ready s sh rs) (hshape : t.shape = s.shape) (hcfg : t.cfg = s.cfg) : Ready t sh rs :=
  ⟨hshape.trans h.1, fun r hr => by rw [hcfg]; exact h.2 r hr⟩

/-- In a state that meets the invariant a register in the file can be written. -/
theorem Ready.lt_length {r : Reg} (h : Ready s sh rs) (hr : r ∈ rs) (hs : s.Inv) : r.toNat < s.e.length := by
  rw [hs.elems.1]
  exact h.2 r hr

end Sys2Proof.Claim

namespace Sys2Proof.Machine

open Sys2Proof.Claim

/-! Element movement (rules R121 to R127). -/

/-- Settles O22: the function of `COPY` is the identity. -/
theorem copyWritesSource : Obligations.CopyWritesSource := fun _ _ _ _ _ h hx => commit_unaryElem _ _ h hx

/-- Settles O23: both checks pass. -/
theorem setwordWritesValue : Obligations.SetwordWritesValue := by
  intro s sh d value h
  change execSetword d value s = _
  rw [execSetword, State.needShape_of_some h.1, ok_bind, State.checkRegs_of_lt h.2, ok_bind, pure_eq_ok, commit_ok]
  rfl

theorem exec_loadbe {s : State} {sh : Shape} {d : Reg} {len : Imm32} {addr : Imm64} (h : Ready s sh [d])
    (hlen : len.toNat ≤ sh.bytecount) (hrange : addr.toNat + len.toNat ≤ s.cfg.bufsize) :
    exec (.loadbe d len addr) s = wrote s d (beValue (s.buf.readBytes addr.toNat len.toNat)) := by
  change execLoadbe d len addr s = _
  rw [execLoadbe, State.needShape_of_some h.1, ok_bind, State.checkRegs_of_lt h.2, ok_bind, require_of hlen, ok_bind,
    State.checkRange_of_le hrange, ok_bind, pure_eq_ok, commit_ok]
  rfl

theorem exec_storebe {s : State} {sh : Shape} {a : Reg} {outLen : Imm32} {addr : Imm64} {v : Nat} (h : Ready s sh [a])
    (hv : s.elem a.toNat = some v) (hlen : sh.bytecount ≤ outLen.toNat)
    (hrange : addr.toNat + outLen.toNat ≤ s.cfg.bufsize) (hfit : v < 2 ^ (8 * outLen.toNat)) :
    exec (.storebe a outLen addr) s = .next ((s.storeBytes addr.toNat (beBytes v outLen.toNat)).respond 0) := by
  change execStorebe a outLen addr s = _
  rw [execStorebe, State.needShape_of_some h.1, ok_bind, State.checkRegs_of_lt h.2, ok_bind, State.readElem_of_some hv,
    ok_bind, require_of hlen, ok_bind, State.checkRange_of_le hrange, ok_bind, require_of hfit, ok_bind, pure_eq_ok,
    commit_ok]

/-! Byte order (rules R52, R53). -/

theorem beValue_append_singleton (bytes : List Byte) (b : Byte) : beValue (bytes ++ [b]) = 256 * beValue bytes + b.toNat := by
  rw [beValue, List.foldl_append]
  rfl

/-- The number a run of bytes spells, as the sum of rule R52. -/
theorem beValue_readBytes (m : Memory) (addr n : Nat) :
    beValue (m.readBytes addr n) = ∑ j ∈ Finset.range n, (m.read (addr + j)).toNat * 256 ^ (n - 1 - j) := by
  induction n with
  | zero => rfl
  | succ n ih =>
    rw [Memory.readBytes, List.range_succ, List.map_append, List.map_singleton, beValue_append_singleton,
      ← Memory.readBytes, ih, Finset.sum_range_succ, Finset.mul_sum, Nat.add_sub_cancel, Nat.sub_self, pow_zero, mul_one]
    refine congrArg (· + _) (Finset.sum_congr rfl fun j hj => ?_)
    rw [show n - j = n - 1 - j + 1 by have := Finset.mem_range.mp hj; omega, pow_succ]
    ring

theorem length_beBytes (v k : Nat) : (beBytes v k).length = k := by simp [beBytes]

theorem getD_beBytes {v k j : Nat} (hj : j < k) : (beBytes v k).getD j 0 = beByte v k j := by simp [beBytes, hj]

/-- The last byte of an encoding is the low byte, and the others encode what is above it (rule R53). -/
theorem beBytes_succ (v k : Nat) : beBytes v (k + 1) = beBytes (v / 256) k ++ [BitVec.ofNat 8 v] := by
  rw [beBytes, List.range_succ, List.map_append, List.map_singleton, beByte, Nat.add_sub_cancel, Nat.sub_self, Nat.mul_zero,
    pow_zero, Nat.div_one, beBytes]
  refine congrArg (· ++ _) (List.map_congr_left fun j hj => ?_)
  rw [beByte, beByte, Nat.div_div_eq_div_mul, show 256 = 2 ^ 8 from rfl, ← Nat.pow_add,
    show 8 * (k + 1 - 1 - j) = 8 + 8 * (k - 1 - j) by have := List.mem_range.mp hj; omega]

/-- The bytes of a number that fits spell that number (rule R128). -/
theorem beValue_beBytes {v k : Nat} (h : v < 2 ^ (8 * k)) : beValue (beBytes v k) = v := by
  induction k generalizing v with
  | zero =>
    obtain rfl : v = 0 := by simpa using h
    rfl
  | succ k ih =>
    rw [beBytes_succ, beValue_append_singleton, ih (by rw [show 8 * (k + 1) = 8 * k + 8 by ring, Nat.pow_add] at h; omega),
      BitVec.toNat_ofNat]
    exact Nat.div_add_mod v 256

/-- Bytes read where they were written (rule R56). -/
theorem Memory.readBytes_writeBytes (m : Memory) (addr : Nat) (bytes : List Byte) :
    (m.writeBytes addr bytes).readBytes addr bytes.length = bytes := by
  refine List.ext_getElem (Memory.length_readBytes _ _ _) fun j h₁ h₂ => ?_
  simp [Memory.readBytes, Memory.read_writeBytes, h₂]

/-- Settles O24: the bytes read spell the sum. -/
theorem loadbeWritesBigEndianValue : Obligations.LoadbeWritesBigEndianValue := by
  intro s sh d len addr h hlen hrange
  rw [exec_loadbe h hlen hrange, beValue_readBytes]

/-- Settles O25: each check with those before it passed. -/
theorem loadbeErrors : Obligations.LoadbeErrors := by
  intro s sh d len addr hsh
  have hexec : exec (.loadbe d len addr) s = execLoadbe d len addr s := rfl
  rw [hexec, execLoadbe, State.needShape_of_some hsh, ok_bind]
  refine ⟨fun hd => ?badRegister, fun hd hlen => ?lengthExceeded, fun hd hlen hrange => ?bufferRange⟩
  case badRegister =>
    rw [State.checkRegs_of_le (List.mem_singleton_self d) hd, error_bind, commit_failed]
    rfl
  all_goals rw [State.checkRegs_of_lt (by simpa using hd), ok_bind]
  case lengthExceeded =>
    rw [require_of_not (Nat.not_le_of_gt hlen), error_bind, commit_failed]
    rfl
  case bufferRange =>
    rw [require_of hlen, ok_bind, State.checkRange_of_lt hrange, error_bind, commit_failed]
    rfl

/-- Settles O26: the bytes written, read back one by one. -/
theorem storebeStoresBigEndianBytes : Obligations.StorebeStoresBigEndianBytes := by
  intro s sh a outLen addr v h hv hlen hrange hfit
  refine ⟨_, exec_storebe h hv hlen hrange hfit, fun q => ?_⟩
  rw [State.storeBytes_buf, Memory.read_writeBytes, length_beBytes]
  refine ite_congr rfl (fun hq => ?_) fun _ => rfl
  rw [getD_beBytes (by omega)]
  rfl

/-- Settles O27: each check with those before it passed. -/
theorem storebeErrors : Obligations.StorebeErrors := by
  intro s sh a outLen addr hsh
  have hexec : exec (.storebe a outLen addr) s = execStorebe a outLen addr s := rfl
  rw [hexec, execStorebe, State.needShape_of_some hsh, ok_bind]
  refine ⟨fun ha => ?badRegister, fun ha => ⟨fun hv => ?uninit, fun v hv => ⟨fun hlen => ?bufferTooSmall,
    fun hlen => ⟨fun hrange => ?bufferRange, fun hrange hfit => ?encodeOverflow⟩⟩⟩⟩
  case badRegister =>
    rw [State.checkRegs_of_le (List.mem_singleton_self a) ha, error_bind, commit_failed]
    rfl
  all_goals rw [State.checkRegs_of_lt (by simpa using ha), ok_bind]
  case uninit =>
    rw [State.readElem_of_none hv, error_bind, commit_failed]
    rfl
  all_goals rw [State.readElem_of_some hv, ok_bind]
  case bufferTooSmall =>
    rw [require_of_not (Nat.not_le_of_gt hlen), error_bind, commit_failed]
    rfl
  all_goals rw [require_of hlen, ok_bind]
  case bufferRange =>
    rw [State.checkRange_of_lt hrange, error_bind, commit_failed]
    rfl
  case encodeOverflow =>
    rw [State.checkRange_of_le hrange, ok_bind, require_of_not (Nat.not_lt_of_ge hfit), error_bind, commit_failed]
    rfl

/-- Settles O28: the bytes stored are the bytes loaded. -/
theorem byteRoundTrip : Obligations.ByteRoundTrip := by
  intro s sh a d len addr x hs h hx hfit hlen hrange
  have hstore := exec_storebe (addr := addr) (h.mono (by simp)) hx hlen.ge hrange (hlen ▸ hfit)
  have hready : Ready ((s.storeBytes addr.toNat (beBytes x len.toNat)).respond 0) sh [d] :=
    (h.mono (by simp)).congr rfl rfl
  refine ⟨_, _, hstore, exec_loadbe hready hlen.le hrange, ⟨_, _, rfl⟩, ⟨_, _, rfl⟩, ?_⟩
  have hbytes : (s.buf.writeBytes addr.toNat (beBytes x len.toNat)).readBytes addr.toNat len.toNat =
      beBytes x len.toNat := by
    simpa only [length_beBytes] using s.buf.readBytes_writeBytes addr.toNat (beBytes x len.toNat)
  have hd : d.toNat < s.e.length := h.lt_length (by simp) hs
  simp [State.elem, hd, hbytes, beValue_beBytes (hlen ▸ hfit)]

/-- Settles O29: every check passes. -/
theorem getlimbReturnsLimb : Obligations.GetlimbReturnsLimb := by
  intro s sh a i v h hv hi
  change execGetlimb a i s = _
  rw [execGetlimb, State.needShape_of_some h.1, ok_bind, State.checkRegs_of_lt h.2, ok_bind, State.readElem_of_some hv,
    ok_bind, require_of hi, ok_bind, pure_eq_ok, commit_ok]
  rfl

/-- Settles O30: the byte written, read back. -/
theorem bufwrStoresOneByte : Obligations.BufwrStoresOneByte := by
  intro s byte addr hbyte haddr
  have hexec : exec (.bufwr byte addr) s = .next ((s.storeBytes addr.toNat [byte.truncate 8]).respond 0) := by
    change execBufwr byte addr s = _
    rw [execBufwr, require_of hbyte, ok_bind, require_of haddr, ok_bind, pure_eq_ok, commit_ok]
  refine ⟨_, hexec, fun q => ?_⟩
  rw [State.storeBytes_buf, Memory.writeBytes, Memory.writeBytes, Memory.read_write, apply_ite BitVec.toNat,
    BitVec.truncate_eq_setWidth, BitVec.toNat_setWidth, Nat.mod_eq_of_lt hbyte]

/-- Settles O31: its one check passes. -/
theorem bufrdReturnsByte : Obligations.BufrdReturnsByte := by
  intro s addr haddr
  change execBufrd addr s = _
  rw [execBufrd, require_of haddr, ok_bind, pure_eq_ok, commit_ok]
  rfl

/-- Settles O32: the last check of each of the three commands. -/
theorem outOfRangeAccessFails : Obligations.OutOfRangeAccessFails := by
  refine ⟨fun s byte addr haddr => ⟨fun hbyte => ?bufwr, ?bufrd⟩, fun s sh a i v h hv hi => ?getlimb⟩
  case bufwr =>
    change execBufwr byte addr s = _
    rw [execBufwr, require_of hbyte, ok_bind, require_of_not (Nat.not_lt_of_ge haddr), error_bind, commit_failed]
    rfl
  case bufrd =>
    change execBufrd addr s = _
    rw [execBufrd, require_of_not (Nat.not_lt_of_ge haddr), error_bind, commit_failed]
    rfl
  case getlimb =>
    change execGetlimb a i s = _
    rw [execGetlimb, State.needShape_of_some h.1, ok_bind, State.checkRegs_of_lt h.2, ok_bind, State.readElem_of_some hv,
      ok_bind, require_of_not (Nat.not_lt_of_ge hi), error_bind, commit_failed]
    rfl

/-! Checks common to the commands (rules R282, R283). -/

/-- Settles O33: the other commands have none of the opcodes, and the shape is the first check of these. -/
theorem commandsNeedShape : Obligations.CommandsNeedShape := by
  intro s i hsh hop
  cases i
  case nop | derive | clrerr | rdcsr | bufwr | bufrd => simp [opcodeOf] at hop
  all_goals exact commit_of_no_shape hsh _ _

/-- `INV` with `INV_OK = 1` goes on as the commands `E[d] <- f(E[a])` do (rule R225). -/
theorem exec_inv_of_invOk {s : State} {sh : Shape} (hsh : s.shape = some sh) (hinv : sh.invOk = true) (d a : Reg) :
    exec (.inv d a) s = commit (.inv d a) s (unaryElem d a s Shape.inv) := by
  change execInv d a s = _
  rw [execInv, State.needShape_of_some hsh, ok_bind, hinv, require_true, ok_bind]

/-- Settles O34: the register check comes after the shape, and for `INV` after `INV_OK`. -/
theorem registerBeyondNregFails : Obligations.RegisterBeyondNregFails := by
  intro s sh d a b hsh
  refine ⟨fun hda => ?unary, fun hdab => ?binary, fun hd v => ?setword, fun ha k => ?getlimb⟩
  case unary =>
    have key := fun i f => commit_unaryElem_badRegister i f hsh hda
    exact ⟨key _ _, key _ _, fun k => key _ _, key _ _, fun ovf => key _ _,
      fun hinv => (exec_inv_of_invOk hsh hinv d a).trans (key _ _)⟩
  case binary =>
    have key := fun i f => commit_binaryElem_badRegister i f hsh hdab
    exact ⟨key _ _, key _ _, key _ _, key _ _⟩
  case setword =>
    change execSetword d v s = _
    rw [execSetword, State.needShape_of_some hsh, ok_bind, State.checkRegs_of_le (List.mem_singleton_self d) hd,
      error_bind, commit_failed]
    rfl
  case getlimb =>
    change execGetlimb a k s = _
    rw [execGetlimb, State.needShape_of_some hsh, ok_bind, State.checkRegs_of_le (List.mem_singleton_self a) ha,
      error_bind, commit_failed]
    rfl

/-- Settles O35: the valid bits come after the register check. -/
theorem unwrittenSourceFails : Obligations.UnwrittenSourceFails := by
  intro s sh d a b h
  refine ⟨fun hx => ?unary, fun hxy => ?binary⟩
  case unary =>
    have hda : Ready s sh [d, a] := h.mono (by simp)
    have key := fun i f => commit_unaryElem_uninit i f hda hx
    refine ⟨key _ _, key _ _, fun k => key _ _, key _ _, fun ovf => key _ _,
      fun hinv => (exec_inv_of_invOk h.1 hinv d a).trans (key _ _), fun k => ?_⟩
    have ha : Ready s sh [a] := h.mono (by simp)
    change execGetlimb a k s = _
    rw [execGetlimb, State.needShape_of_some h.1, ok_bind, State.checkRegs_of_lt ha.2, ok_bind,
      State.readElem_of_none hx, error_bind, commit_failed]
    rfl
  case binary =>
    have key := fun i f => commit_binaryElem_uninit i f h hxy
    exact ⟨key _ _, key _ _, key _ _, key _ _⟩

/-- Settles O50: `INV_OK` is the second check of both commands. -/
theorem inverterRefusesShapeWithoutChain : Obligations.InverterRefusesShapeWithoutChain := by
  intro s sh d a parts hsh hinv
  refine ⟨?inv, ?join⟩
  case inv =>
    change execInv d a s = _
    rw [execInv, State.needShape_of_some hsh, ok_bind, hinv, require_false, error_bind, commit_failed]
    rfl
  case join =>
    change execJoin d a parts s = _
    rw [execJoin, State.needShape_of_some hsh, ok_bind, hinv, require_false, error_bind, commit_failed]
    rfl

end Sys2Proof.Machine
end

section
/-! The reducer and the field operations (rules R151 to R159, R181 to R189): what they do modulo `p` for every accepted
shape, the bounds within which they complete for a regular one, and how their commands end; from these the statements O36
to O49. -/

namespace Sys2Proof.Machine

open Sys2Proof.Claim

/-! The fold (rules R151, R152). -/

theorem Shape.fold_of_lt {sh : Shape} {v : Nat} (h : v < sh.top) : sh.fold v = v := by
  rw [Shape.fold, Nat.mod_eq_of_lt h, Nat.div_eq_of_lt h, Nat.zero_mul, Nat.add_zero]

theorem Shape.top_pos (sh : Shape) : 0 < sh.top := Nat.two_pow_pos _

theorem Shape.fold_le (sh : Shape) (v : Nat) : sh.fold v ≤ sh.top - 1 + v / sh.top * sh.word.toNat :=
  Nat.add_le_add_right (Nat.le_sub_one_of_lt (Nat.mod_lt _ sh.top_pos)) _

/-- A value with quotient at most `q` folds below `T + q·c`. -/
theorem Shape.fold_lt_of_lt {sh : Shape} {v q : Nat} (h : v < (q + 1) * sh.top) :
    sh.fold v < sh.top + q * sh.word.toNat := by
  have hq : v / sh.top ≤ q := Nat.lt_succ_iff.mp (Nat.div_lt_of_lt_mul (by rwa [Nat.mul_comm]))
  have hle := sh.fold_le v
  have hmul : v / sh.top * sh.word.toNat ≤ q * sh.word.toNat := Nat.mul_le_mul_right _ hq
  have hpos := sh.top_pos
  omega

section
variable {cfg : Config} {sh : Shape}

/-- A fold replaces each `T` by `c`, which is `T` modulo `p` (rule R152). -/
theorem Shape.Derived.fold_modEq (h : sh.Derived cfg) (v : Nat) : sh.fold v ≡ v [MOD sh.prime] := by
  have hc : sh.word.toNat ≡ sh.top [MOD sh.prime] := by
    rw [← h.prime_add_word]
    exact (Nat.add_modEq_left (n := sh.prime) (a := sh.word.toNat)).symm
  calc sh.fold v ≡ v % sh.top + v / sh.top * sh.top [MOD sh.prime] := Nat.ModEq.add_left _ (hc.mul_left _)
    _ = v := Nat.mod_add_div' v sh.top

theorem Shape.Derived.fold_lt (h : sh.Derived cfg) {v : Nat} (hv : sh.top ≤ v) : sh.fold v < v := by
  have hq : 0 < v / sh.top := Nat.div_pos hv sh.top_pos
  calc sh.fold v < v % sh.top + v / sh.top * sh.top :=
        Nat.add_lt_add_left ((Nat.mul_lt_mul_left hq).mpr h.word_lt_top) _
    _ = v := Nat.mod_add_div' v sh.top

/-- Settles O36: the facts above, with `c` the word of the pair. -/
theorem foldFacts : Obligations.FoldFacts := by
  intro cfg bits word sh v hder
  obtain ⟨h, -, rfl⟩ := Shape.derived_of_derive hder
  have hle := sh.fold_le v
  have hpos := sh.top_pos
  exact ⟨h.fold_modEq v, Shape.fold_of_lt, h.fold_lt, hle, fun _ => by omega⟩

/-! The reductions modulo `p` (rule R157 (e)). -/

theorem Shape.Derived.reduceSmall_modEq (h : sh.Derived cfg) {v r : Nat} (hr : sh.reduceSmall v = .ok r) :
    r ≡ v [MOD sh.prime] := by
  obtain ⟨-, rfl | ⟨-, rfl⟩⟩ := Shape.reduceSmall_eq_ok.mp hr
  · exact h.fold_modEq v
  · exact (h.fold_modEq _).trans (h.fold_modEq v)

theorem Shape.Derived.reduceLong_modEq (h : sh.Derived cfg) {v r : Nat} (hr : sh.reduceLong v = .ok r) :
    r ≡ v [MOD sh.prime] :=
  (h.reduceSmall_modEq hr).trans ((h.fold_modEq _).trans (h.fold_modEq v))

/-! The bounds for a regular shape (rule R157 (a) to (d)). -/

theorem Shape.Derived.word_pos (h : sh.Derived cfg) : 0 < sh.word.toNat := by
  have hodd := h.word_odd
  omega

theorem Shape.Regular.three_mul_word_le (hreg : sh.Regular) (h : sh.Derived cfg) : 3 * sh.word.toNat ≤ sh.top :=
  (Nat.mul_le_mul_right _ (by have := h.word_pos; omega)).trans hreg

theorem Shape.Regular.sq_word_add_le (hreg : sh.Regular) : sh.word.toNat ^ 2 + 2 * sh.word.toNat ≤ sh.top := by
  calc sh.word.toNat ^ 2 + 2 * sh.word.toNat = (sh.word.toNat + 2) * sh.word.toNat := by ring
    _ ≤ sh.top := hreg

theorem Shape.Regular.sq_word_lt (hreg : sh.Regular) (h : sh.Derived cfg) : sh.word.toNat ^ 2 < sh.top := by
  have hle := hreg.sq_word_add_le
  have hpos := h.word_pos
  omega

theorem Shape.Regular.fold_lt (hreg : sh.Regular) (h : sh.Derived cfg) {v : Nat}
    (hv : v < 2 * sh.top + 2 * sh.word.toNat) : sh.fold v < sh.top + sh.word.toNat := by
  have h3 := hreg.three_mul_word_le h
  rcases Nat.lt_or_ge v (2 * sh.top) with hlt | hge
  · simpa using Shape.fold_lt_of_lt (q := 1) hlt
  · have hpos := h.word_pos
    have hv' : v = (v - 2 * sh.top) + sh.top * 2 := by omega
    have hlow : v - 2 * sh.top < sh.top := by omega
    rw [Shape.fold, hv', Nat.add_mul_mod_self_left, Nat.mod_eq_of_lt hlow, Nat.add_mul_div_left _ _ sh.top_pos,
      Nat.div_eq_of_lt hlow]
    omega

/-- What does not fit the register after the first fold fits after the second (rule R157 (c)). -/
theorem Shape.Regular.reduceSmall_completes (hreg : sh.Regular) (h : sh.Derived cfg) {v : Nat}
    (hv : v < 2 * sh.top + 2 * sh.word.toNat) : ∃ r, sh.reduceSmall v = .ok r ∧ sh.WeaklyReduced r := by
  have hfold := hreg.fold_lt h hv
  have h3 := hreg.three_mul_word_le h
  have htop := h.top_le
  have hpos := h.word_pos
  rcases Nat.lt_or_ge (sh.fold v) (2 ^ sh.width) with hfits | hlarge
  · exact ⟨_, Shape.reduceSmall_eq_ok.mpr ⟨hfits, .inl rfl⟩, lt_min hfold hfits⟩
  · have hagain : sh.fold (sh.fold v) < 2 * sh.word.toNat := by
      have hsplit : sh.fold v = (sh.fold v - sh.top) + sh.top * 1 := by omega
      have hlow : sh.fold v - sh.top < sh.top := by omega
      rw [Shape.fold, hsplit, Nat.add_mul_mod_self_left, Nat.mod_eq_of_lt hlow, Nat.add_mul_div_left _ _ sh.top_pos,
        Nat.div_eq_of_lt hlow]
      omega
    exact ⟨_, Shape.reduceSmall_eq_ok.mpr ⟨by omega, .inr ⟨hlarge, rfl⟩⟩, lt_min (by omega) (by omega)⟩

/-- Two folds bring a product of two weakly reduced values below `2T` (rule R157 (d)). -/
theorem Shape.Regular.fold_fold_lt (hreg : sh.Regular) (h : sh.Derived cfg) {v : Nat}
    (hv : v < (sh.top + sh.word.toNat) ^ 2) : sh.fold (sh.fold v) < 2 * sh.top := by
  have hsq := hreg.sq_word_add_le
  have hpos := h.word_pos
  have hfirst : sh.fold v < sh.top + (sh.top + 2 * sh.word.toNat) * sh.word.toNat :=
    Shape.fold_lt_of_lt (by nlinarith)
  have hsecond : sh.fold (sh.fold v) < sh.top + (sh.word.toNat + 2) * sh.word.toNat :=
    Shape.fold_lt_of_lt (by nlinarith)
  have hle : (sh.word.toNat + 2) * sh.word.toNat ≤ sh.top := hreg
  omega

theorem Shape.Regular.reduceLong_completes (hreg : sh.Regular) (h : sh.Derived cfg) {v : Nat}
    (hv : v < (sh.top + sh.word.toNat) ^ 2) : ∃ r, sh.reduceLong v = .ok r ∧ sh.WeaklyReduced r :=
  hreg.reduceSmall_completes h (by have := hreg.fold_fold_lt h hv; omega)

theorem Shape.Regular.lt_two_mul_prime (hreg : sh.Regular) (h : sh.Derived cfg) {v : Nat} (hv : sh.WeaklyReduced v) :
    v < 2 * sh.prime := by
  have h3 := hreg.three_mul_word_le h
  have hp := h.prime_add_word
  have hlt := (lt_min_iff.mp hv).1
  omega

end

/-- Settles O37: the bounds and congruences above. -/
theorem reducerBounds : Obligations.ReducerBounds := by
  intro cfg bits word sh hder
  obtain ⟨h, -, rfl⟩ := Shape.derived_of_derive hder
  refine ⟨fun hreg => ⟨⟨hreg.three_mul_word_le h, hreg.sq_word_lt h⟩, fun v => hreg.fold_lt h,
    fun v => hreg.reduceSmall_completes h, fun v => hreg.reduceLong_completes h, fun v => hreg.lt_two_mul_prime h⟩,
    fun v r hr => ⟨h.reduceSmall_modEq hr, Shape.reduceSmall_lt hr⟩,
    fun v r hr => ⟨h.reduceLong_modEq hr, Shape.reduceSmall_lt hr⟩⟩

/-! How the commands end, by the function of their rule. -/

section
variable {s : State} {sh : Shape} {d a b : Reg} {x y : Nat}

theorem exec_reds (ovf : Imm64) (h : Ready s sh [d, a]) (hx : s.elem a.toNat = some x) :
    exec (.reds d a ovf) s = ended s 0x28 d (sh.reduceSmall (x + 2 ^ sh.width * ovf.toNat)) :=
  commit_unaryElem _ _ h hx

theorem exec_redl (h : Ready s sh [d, a, b]) (hx : s.elem a.toNat = some x) (hy : s.elem b.toNat = some y) :
    exec (.redl d a b) s = ended s 0x29 d (sh.reduceLong (x + 2 ^ sh.width * y)) :=
  commit_binaryElem _ _ h hx hy

theorem exec_add (h : Ready s sh [d, a, b]) (hx : s.elem a.toNat = some x) (hy : s.elem b.toNat = some y) :
    exec (.add d a b) s = ended s 0x20 d (sh.add x y) := commit_binaryElem _ _ h hx hy

theorem exec_sub (h : Ready s sh [d, a, b]) (hx : s.elem a.toNat = some x) (hy : s.elem b.toNat = some y) :
    exec (.sub d a b) s = ended s 0x21 d (sh.sub x y) := commit_binaryElem _ _ h hx hy

theorem exec_mul (h : Ready s sh [d, a, b]) (hx : s.elem a.toNat = some x) (hy : s.elem b.toNat = some y) :
    exec (.mul d a b) s = ended s 0x22 d (sh.mul x y) := commit_binaryElem _ _ h hx hy

theorem exec_sqr (h : Ready s sh [d, a]) (hx : s.elem a.toNat = some x) :
    exec (.sqr d a) s = ended s 0x23 d (sh.sqr x) := commit_unaryElem _ _ h hx

theorem exec_sqrn (k : Imm32) (h : Ready s sh [d, a]) (hx : s.elem a.toNat = some x) :
    exec (.sqrn d a k) s = ended s 0x24 d (sh.sqrN x k.toNat) := commit_unaryElem _ _ h hx

theorem exec_fred (h : Ready s sh [d, a]) (hx : s.elem a.toNat = some x) :
    exec (.fred d a) s = wrote s d (sh.fred x) := commit_unaryElem _ _ h hx

/-- The reducer's outcome as a command shows it (rule R153). -/
theorem ended_reduceSmall (s : State) (sh : Shape) (op : Byte) (d : Reg) (v : Nat) :
    ended s op d (sh.reduceSmall v) =
      if sh.fold v < 2 ^ (64 * sh.limbcount) then wrote s d (sh.fold v)
      else if sh.fold (sh.fold v) < 2 ^ (64 * sh.limbcount) then wrote s d (sh.fold (sh.fold v))
      else failed s op 13 := by
  rw [Shape.reduceSmall, Shape.width]
  split_ifs <;> rfl

end

/-- Settles O38: the reducer on the extended value. -/
theorem redsReducesExtendedValue : Obligations.RedsReducesExtendedValue := by
  rintro s sh d a ovf x v h hx rfl
  rw [exec_reds ovf h hx, Shape.width, ended_reduceSmall]

/-- Settles O39: the reducer on the value after two folds. -/
theorem redlReducesDoubleWidthValue : Obligations.RedlReducesDoubleWidthValue := by
  rintro s sh d a b x y v h hx hy rfl
  rw [exec_redl h hx hy, Shape.reduceLong, Shape.width, ended_reduceSmall]

/-- Settles O41: the reducer on the sum. -/
theorem addWritesReducedSum : Obligations.AddWritesReducedSum := by
  rintro s sh d a b x y v h hx hy rfl
  rw [exec_add h hx hy, Shape.add, ended_reduceSmall]

/-- Settles O42: the test of `SUB`, then the reducer on the difference. -/
theorem subWritesReducedDifference : Obligations.SubWritesReducedDifference := by
  intro s sh d a b x y v h hx hy
  rw [exec_sub h hx hy, Shape.sub]
  refine ⟨fun hunder => by rw [if_pos hunder]; rfl, fun hv => ?_⟩
  rw [if_neg (by omega), show x + sh.prime - y = v by omega, ended_reduceSmall]

/-- Settles O43: the reducer on the product after two folds. -/
theorem mulAndSqrWriteReducedProduct : Obligations.MulAndSqrWriteReducedProduct := by
  intro s sh d a b x y v h hx hy
  refine ⟨?mul, ?sqr⟩
  case mul =>
    rintro rfl
    rw [exec_mul h hx hy, Shape.mul, Shape.reduceLong, ended_reduceSmall]
  case sqr =>
    rintro rfl
    rw [exec_sqr (h.mono (by simp)) hx, Shape.sqr, Shape.reduceLong, ended_reduceSmall, Nat.pow_two]

/-- Settles O46: the function of `FRED`. -/
theorem fredSubtractsPrimeOnce : Obligations.FredSubtractsPrimeOnce := fun _ _ _ _ _ h hx => exec_fred h hx

/-- Settles O40: the bounds of rule R157 and the congruence of a reduction. -/
theorem reducerCommandsComplete : Obligations.ReducerCommandsComplete := by
  intro s sh d a b ovf x y hs h hreg hx hy
  have hd := hs.shape sh h.1
  refine ⟨fun hv => ?reds, fun hv => ?redl⟩
  case reds =>
    obtain ⟨r, hr, hweak⟩ := hreg.reduceSmall_completes hd hv
    exact ⟨r, by rw [exec_reds ovf (h.mono (by simp)) hx, hr, ended_ok], hweak, hd.reduceSmall_modEq hr⟩
  case redl =>
    obtain ⟨r, hr, hweak⟩ := hreg.reduceLong_completes hd hv
    exact ⟨r, by rw [exec_redl h hx hy, hr, ended_ok], hweak, hd.reduceLong_modEq hr⟩

/-! The functions on values: completion for a regular shape (rule R187). -/

section
variable {cfg : Config} {sh : Shape} {x y : Nat}

theorem Shape.Regular.add_completes (hreg : sh.Regular) (h : sh.Derived cfg) (hx : sh.WeaklyReduced x)
    (hy : sh.WeaklyReduced y) : ∃ r, sh.add x y = .ok r ∧ sh.WeaklyReduced r := by
  have hxlt := (lt_min_iff.mp hx).1
  have hylt := (lt_min_iff.mp hy).1
  exact hreg.reduceSmall_completes h (by omega)

theorem Shape.Regular.sub_completes (hreg : sh.Regular) (h : sh.Derived cfg) (hx : sh.WeaklyReduced x)
    (hle : y ≤ x + sh.prime) : ∃ r, sh.sub x y = .ok r ∧ sh.WeaklyReduced r := by
  have hxlt := (lt_min_iff.mp hx).1
  have hp := h.prime_add_word
  rw [Shape.sub, if_neg (by omega)]
  exact hreg.reduceSmall_completes h (by omega)

theorem Shape.sub_underflow (h : x + sh.prime < y) : sh.sub x y = .error .subUnderflow := if_pos h

theorem Shape.Regular.mul_completes (hreg : sh.Regular) (h : sh.Derived cfg) (hx : sh.WeaklyReduced x)
    (hy : sh.WeaklyReduced y) : ∃ r, sh.mul x y = .ok r ∧ sh.WeaklyReduced r := by
  refine hreg.reduceLong_completes h ?_
  rw [Nat.pow_two]
  exact Nat.mul_lt_mul'' (lt_min_iff.mp hx).1 (lt_min_iff.mp hy).1

/-- Squaring is multiplying by itself (rule R184). -/
theorem Shape.sqr_eq_mul (sh : Shape) (x : Nat) : sh.sqr x = sh.mul x x := rfl

theorem Shape.Regular.fred_eq_mod (hreg : sh.Regular) (h : sh.Derived cfg) (hx : sh.WeaklyReduced x) :
    sh.fred x = x % sh.prime := by
  have hlt := hreg.lt_two_mul_prime h hx
  rw [Shape.fred]
  split_ifs with hle
  · rw [Nat.mod_eq_sub_mod hle, Nat.mod_eq_of_lt (by omega)]
  · rw [Nat.mod_eq_of_lt (by omega)]

/-! The functions on values modulo `p`, for every accepted shape (rule R188). -/

theorem Shape.Derived.add_modEq (h : sh.Derived cfg) {r : Nat} (hr : sh.add x y = .ok r) : r ≡ x + y [MOD sh.prime] :=
  h.reduceSmall_modEq hr

theorem Shape.Derived.sub_modEq (h : sh.Derived cfg) {r : Nat} (hr : sh.sub x y = .ok r) : r + y ≡ x [MOD sh.prime] := by
  rw [Shape.sub] at hr
  split_ifs at hr with hunder
  calc r + y ≡ (x + sh.prime - y) + y [MOD sh.prime] := (h.reduceSmall_modEq hr).add_right y
    _ = x + sh.prime := Nat.sub_add_cancel (Nat.le_of_not_lt hunder)
    _ ≡ x [MOD sh.prime] := Nat.add_modEq_right

theorem Shape.Derived.mul_modEq (h : sh.Derived cfg) {r : Nat} (hr : sh.mul x y = .ok r) : r ≡ x * y [MOD sh.prime] :=
  h.reduceLong_modEq hr

theorem Shape.Derived.sqrN_modEq (h : sh.Derived cfg) {k r : Nat} (hr : sh.sqrN x k = .ok r) :
    r ≡ x ^ (2 ^ k) [MOD sh.prime] := by
  induction k generalizing x with
  | zero =>
    obtain rfl : x = r := Except.ok.inj hr
    rw [pow_zero, pow_one]
  | succ k ih =>
    obtain ⟨t, ht, hr⟩ := bind_eq_ok.mp hr
    calc r ≡ t ^ (2 ^ k) [MOD sh.prime] := ih hr
      _ ≡ (x * x) ^ (2 ^ k) [MOD sh.prime] := (h.mul_modEq ht).pow _
      _ = x ^ (2 ^ (k + 1)) := by rw [← pow_two, ← pow_mul, pow_succ' 2 k]

theorem Shape.fred_modEq (sh : Shape) (x : Nat) : sh.fred x ≡ x [MOD sh.prime] := by
  rw [Shape.fred]
  split_ifs with hle
  · exact (Nat.modEq_iff_dvd' (Nat.sub_le _ _)).mpr (by rw [Nat.sub_sub_self hle])
  · rfl

end

/-! Completion, as one predicate that follows a computation. -/

/-- The computation completes with a value that has the property. -/
def Completes {α : Type} (P : α → Prop) (r : Except ErrorKind α) : Prop := ∃ v, r = .ok v ∧ P v

theorem Completes.bind {α β : Type} {P : α → Prop} {Q : β → Prop} {r : Except ErrorKind α}
    {f : α → Except ErrorKind β} (h : Completes P r) (hf : ∀ v, P v → Completes Q (f v)) : Completes Q (r >>= f) := by
  obtain ⟨v, rfl, hv⟩ := h
  exact hf v hv

theorem Completes.ok {α : Type} {P : α → Prop} {v : α} (h : P v) : Completes P (.ok v) := ⟨v, rfl, h⟩

/-- Products of values with the property complete and have it again: weakly reduced values of a regular shape, and the
number 0 of any shape. -/
def Shape.ClosedUnderMul (sh : Shape) (P : Nat → Prop) : Prop := ∀ x y, P x → P y → Completes P (sh.mul x y)

theorem Shape.Regular.closedUnderMul {cfg : Config} {sh : Shape} (hreg : sh.Regular) (h : sh.Derived cfg) :
    sh.ClosedUnderMul sh.WeaklyReduced := fun _ _ => hreg.mul_completes h

theorem Shape.ClosedUnderMul.sqrN {sh : Shape} {P : Nat → Prop} (h : sh.ClosedUnderMul P) {x : Nat} (hx : P x) (k : Nat) :
    Completes P (sh.sqrN x k) := by
  induction k generalizing x with
  | zero => exact .ok hx
  | succ k ih => exact (h x x hx hx).bind fun t ht => ih ht

/-- What `ended` says of a computation that completes. -/
theorem Completes.ended {P : Nat → Prop} {r : Except ErrorKind Nat} (h : Completes P r) (s : State) (op : Byte) (d : Reg) :
    ∃ v, Machine.ended s op d r = wrote s d v ∧ P v := by
  obtain ⟨v, rfl, hv⟩ := h
  exact ⟨v, rfl, hv⟩

/-! Repeated squaring (rule R185). -/

theorem Shape.sqrN_eq_ok {sh : Shape} {v : Nat → Nat} {k : Nat}
    (h : ∀ i < k, sh.reduceLong (v i * v i) = .ok (v (i + 1))) : sh.sqrN (v 0) k = .ok (v k) := by
  induction k generalizing v with
  | zero => rfl
  | succ k ih =>
    rw [Shape.sqrN, Shape.sqr, h 0 (by omega), ok_bind]
    exact ih (v := fun i => v (i + 1)) fun i hi => h (i + 1) (by omega)

theorem Shape.reduceLong_eq_error {sh : Shape} {v : Nat} (h : ∀ r, sh.reduceLong v ≠ .ok r) :
    sh.reduceLong v = .error .resultOverflow := by
  cases hr : sh.reduceLong v with
  | ok r => exact absurd hr (h r)
  | error k =>
    obtain ⟨-, -, rfl⟩ := Shape.reduceSmall_eq_error.mp hr
    rfl

theorem Shape.sqrN_eq_error {sh : Shape} {v : Nat → Nat} {j k : Nat} (hjk : j < k)
    (h : ∀ i < j, sh.reduceLong (v i * v i) = .ok (v (i + 1))) (hj : ∀ r, sh.reduceLong (v j * v j) ≠ .ok r) :
    sh.sqrN (v 0) k = .error .resultOverflow := by
  obtain ⟨k, rfl⟩ : ∃ k', k = k' + 1 := ⟨k - 1, by omega⟩
  induction j generalizing v k with
  | zero => rw [Shape.sqrN, Shape.sqr, Shape.reduceLong_eq_error hj, error_bind]
  | succ j ih =>
    rw [Shape.sqrN, Shape.sqr, h 0 (by omega), ok_bind]
    obtain ⟨k, rfl⟩ : ∃ k', k = k' + 1 := ⟨k - 1, by omega⟩
    exact ih (v := fun i => v (i + 1)) (fun i hi => h (i + 1) (by omega)) hj k (by omega)

/-- Settles O45: the induction over the squarings, on the two ways they end. -/
theorem sqrnSquaresRepeatedly : Obligations.SqrnSquaresRepeatedly := by
  intro s sh d a k v h hx
  rw [exec_sqrn k h hx]
  refine ⟨fun hall => by rw [Shape.sqrN_eq_ok hall, ended_ok], fun j hjk hbefore hj => ?_⟩
  rw [Shape.sqrN_eq_error hjk hbefore hj, ended_error]
  rfl

/-- A command with one register as both sources is the command on one source. -/
theorem binaryElem_same (d a : Reg) (s : State) (f : Shape → Nat → Nat → Except ErrorKind Nat) :
    binaryElem d a a s f = unaryElem d a s (fun sh x => f sh x x) := by
  have hregs : s.checkRegs [d, a, a] = s.checkRegs [d, a] := by simp [State.checkRegs]
  rw [binaryElem, unaryElem, hregs]
  refine congrArg _ (funext fun sh => congrArg _ (funext fun _ => ?_))
  cases s.readElem a.toNat with
  | ok x => rfl
  | error k => rfl

/-- Settles O44: the two commands commit the same outcome, each with its own opcode. -/
theorem sqrEqualsMul : Obligations.SqrEqualsMul := by
  intro s t u d a hsqr hmul
  have hsqr' : commit (.sqr d a) s (unaryElem d a s Shape.sqr) = .next t := hsqr
  have hmul' : commit (.mul d a a) s (binaryElem d a a s Shape.mul) = .next u := hmul
  rw [binaryElem_same] at hmul'
  change commit (.mul d a a) s (unaryElem d a s Shape.sqr) = .next u at hmul'
  rcases hr : unaryElem d a s Shape.sqr with k | ⟨v, data⟩
  all_goals
    rw [hr] at hsqr' hmul'
    obtain rfl := Host.Outcome.next.inj hsqr'
    obtain rfl := Host.Outcome.next.inj hmul'
    exact ⟨rfl, rfl, rfl, rfl, rfl⟩

/-- Settles O47: completion of each function, and the one subtraction of `FRED` from a value below `2p`. -/
theorem fieldOpsClosure : Obligations.FieldOpsClosure := by
  intro s sh d a b x y hs h hreg hx hy hxw hyw
  have hd := hs.shape sh h.1
  have hda : Ready s sh [d, a] := h.mono (by simp)
  have hmul := hreg.closedUnderMul hd
  refine ⟨?add, ?mul, ?sqr, fun k => ?sqrn, fun hle => ?sub, fun hlt => ?underflow, ?fred, Nat.mod_lt _ hd.prime_pos⟩
  case add => rw [exec_add h hx hy]; exact Completes.ended (hreg.add_completes hd hxw hyw) _ _ _
  case mul => rw [exec_mul h hx hy]; exact (hmul x y hxw hyw).ended _ _ _
  case sqr => rw [exec_sqr hda hx]; exact (hmul x x hxw hxw).ended _ _ _
  case sqrn => rw [exec_sqrn k hda hx]; exact (hmul.sqrN hxw _).ended _ _ _
  case sub => rw [exec_sub h hx hy]; exact Completes.ended (hreg.sub_completes hd hxw hle) _ _ _
  case underflow => rw [exec_sub h hx hy, Shape.sub_underflow hlt]; rfl
  case fred => rw [exec_fred hda hx, hreg.fred_eq_mod hd hxw]

/-! The state after a register was written. -/

/-- The state after a command that wrote `E[d]`. -/
def State.wroteTo (s : State) (d : Reg) (v : Nat) : State := (s.setElem d.toNat v).respond 0

theorem wrote_eq (s : State) (d : Reg) (v : Nat) : wrote s d v = .next (s.wroteTo d v) := rfl

section
variable {s : State} {d : Reg} {v : Nat}

theorem State.wroteTo_ok : Ok (s.wroteTo d v) := ⟨_, _, rfl⟩

theorem State.wroteTo_length : (s.wroteTo d v).e.length = s.e.length := List.length_set

theorem State.wroteTo_elem_same (hd : d.toNat < s.e.length) : (s.wroteTo d v).elem d.toNat = some v :=
  (State.elem_setElem s _ _ v hd).trans (if_pos rfl)

theorem State.wroteTo_elem_of_ne {b : Reg} (hne : d ≠ b) (hd : d.toNat < s.e.length) :
    (s.wroteTo d v).elem b.toNat = s.elem b.toNat :=
  (State.elem_setElem s _ _ v hd).trans (if_neg fun h => hne (BitVec.eq_of_toNat_eq h.symm))

theorem State.wroteTo_ready {sh : Shape} {rs rs' : List Reg} (h : Ready s sh rs) (hsub : rs' ⊆ rs) :
    Ready (s.wroteTo d v) sh rs' := (h.mono hsub).congr rfl rfl

end

/-! What an answer `OK` says of a command. -/

theorem code_eq_zero_of_failed {s t : State} {op code : Byte} (h : failed s op code = .next t) (hok : Ok t) : code = 0 := by
  obtain rfl := Host.Outcome.next.inj h
  obtain ⟨data, rest, hresp⟩ := hok
  exact congrArg Response.code (List.cons.inj hresp).1

theorem commit_completed {i : Instr} {s t : State} {r : Except ErrorKind (State × Limb)} (h : commit i s r = .next t)
    (hok : Ok t) : ∃ u data, r = .ok (u, data) ∧ t = u.respond data := by
  cases r with
  | ok r =>
    obtain rfl := Host.Outcome.next.inj h
    exact ⟨r.1, r.2, rfl, rfl⟩
  | error k => exact absurd (code_eq_zero_of_failed h hok) (errorCode_ne_zero k)

section
variable {s t : State} {sh : Shape} {d a b : Reg} {x y : Nat} {i : Instr}

/-- A command `E[d] <- f(E[a])` that answers `OK` has computed a value and written it. -/
theorem unaryElem_completed {f : Shape → Nat → Except ErrorKind Nat} (hs : s.Inv) (hsh : s.shape = some sh)
    (hx : s.elem a.toNat = some x) (hok : Ok t) (h : commit i s (unaryElem d a s f) = .next t) :
    ∃ r, f sh x = .ok r ∧ t.elem d.toNat = some r := by
  obtain ⟨u, data, hu, rfl⟩ := commit_completed h hok
  obtain ⟨sh', x', r, hsh', hd, -, hx', hr, rfl, rfl⟩ := unaryElem_eq_ok.mp hu
  obtain rfl : sh = sh' := Option.some.inj (hsh.symm.trans hsh')
  obtain rfl : x = x' := Option.some.inj (hx.symm.trans hx')
  exact ⟨r, hr, State.wroteTo_elem_same (by rwa [hs.elems.1])⟩

/-- A command `E[d] <- f(E[a], E[b])` that answers `OK` has computed a value and written it. -/
theorem binaryElem_completed {f : Shape → Nat → Nat → Except ErrorKind Nat} (hs : s.Inv) (hsh : s.shape = some sh)
    (hx : s.elem a.toNat = some x) (hy : s.elem b.toNat = some y) (hok : Ok t)
    (h : commit i s (binaryElem d a b s f) = .next t) : ∃ r, f sh x y = .ok r ∧ t.elem d.toNat = some r := by
  obtain ⟨u, data, hu, rfl⟩ := commit_completed h hok
  obtain ⟨sh', x', y', r, hsh', hd, -, -, hx', hy', hr, rfl, rfl⟩ := binaryElem_eq_ok.mp hu
  obtain rfl : sh = sh' := Option.some.inj (hsh.symm.trans hsh')
  obtain rfl : x = x' := Option.some.inj (hx.symm.trans hx')
  obtain rfl : y = y' := Option.some.inj (hy.symm.trans hy')
  exact ⟨r, hr, State.wroteTo_elem_same (by rwa [hs.elems.1])⟩

end

/-- Settles O48: the congruence of each function, for the value the command has written. -/
theorem fieldOpsCongruences : Obligations.FieldOpsCongruences := by
  intro s t sh d a b k x y hs hsh hx hy hok
  have hd := hs.shape sh hsh
  refine ⟨fun h => ?add, fun h => ?sub, fun h => ?mul, fun h => ?sqr, fun h => ?sqrn, fun h => ?fred⟩
  case add =>
    obtain ⟨r, hr, ht⟩ := binaryElem_completed hs hsh hx hy hok h
    exact ⟨r, ht, hd.add_modEq hr⟩
  case sub =>
    obtain ⟨r, hr, ht⟩ := binaryElem_completed hs hsh hx hy hok h
    exact ⟨r, ht, hd.sub_modEq hr⟩
  case mul =>
    obtain ⟨r, hr, ht⟩ := binaryElem_completed hs hsh hx hy hok h
    exact ⟨r, ht, hd.mul_modEq hr⟩
  case sqr =>
    obtain ⟨r, hr, ht⟩ := unaryElem_completed hs hsh hx hok h
    exact ⟨r, ht, Nat.pow_two x ▸ hd.mul_modEq hr⟩
  case sqrn =>
    obtain ⟨r, hr, ht⟩ := unaryElem_completed hs hsh hx hok h
    exact ⟨r, ht, hd.sqrN_modEq hr⟩
  case fred =>
    obtain ⟨r, hr, ht⟩ := unaryElem_completed hs hsh hx hok h
    obtain rfl := Except.ok.inj hr
    exact ⟨_, ht, sh.fred_modEq x⟩

/-! Adding and subtracting again (rule R189). -/

theorem Shape.Derived.canonical_weaklyReduced {cfg : Config} {sh : Shape} {v : Nat} (h : sh.Derived cfg)
    (hv : sh.Canonical v) : sh.WeaklyReduced v := by
  have hp := h.prime_add_word
  have htop := h.top_le
  have hlt : v < sh.prime := hv
  exact lt_min (by omega) (by omega)

/-- `FRED` gives the canonical value congruent to a weakly reduced one. -/
theorem Shape.Regular.fred_eq_of_modEq {cfg : Config} {sh : Shape} {x v : Nat} (hreg : sh.Regular) (h : sh.Derived cfg)
    (hv : sh.WeaklyReduced v) (hmod : v ≡ x [MOD sh.prime]) (hx : sh.Canonical x) : sh.fred v = x := by
  rw [hreg.fred_eq_mod h hv]
  exact Eq.trans hmod (Nat.mod_eq_of_lt hx)

/-- A command that writes `E[d]`, one on that value and `E[b]`, and `FRED` on the result of the second. -/
theorem exec_two_then_fred {s : State} {sh : Shape} {d a b : Reg} {x y r₁ r₂ : Nat} (hs : s.Inv) (h : Ready s sh [d, a, b])
    (hne : d ≠ b) (hy : s.elem b.toNat = some y) {i j : Instr}
    (hi : exec i s = wrote s d r₁)
    (hj : ∀ t, Ready t sh [d, d, b] → t.elem d.toNat = some r₁ → t.elem b.toNat = some y → exec j t = wrote t d r₂)
    (hfred : sh.fred r₂ = x) :
    ∃ t u v, exec i s = .next t ∧ exec j t = .next u ∧ exec (.fred d d) u = .next v ∧ Ok t ∧ Ok u ∧ Ok v ∧
      v.elem d.toNat = some x := by
  have hlen : d.toNat < s.e.length := h.lt_length (by simp) hs
  have hlen₁ : d.toNat < (s.wroteTo d r₁).e.length := by rwa [State.wroteTo_length]
  have hlen₂ : d.toNat < ((s.wroteTo d r₁).wroteTo d r₂).e.length := by rwa [State.wroteTo_length]
  have hready₁ : Ready (s.wroteTo d r₁) sh [d, d, b] := State.wroteTo_ready h (by simp)
  have hready₂ : Ready ((s.wroteTo d r₁).wroteTo d r₂) sh [d, d] := State.wroteTo_ready hready₁ (by simp)
  have hexec₂ := hj _ hready₁ (State.wroteTo_elem_same hlen) ((State.wroteTo_elem_of_ne hne hlen).trans hy)
  have hexec₃ := exec_fred hready₂ (State.wroteTo_elem_same hlen₁)
  rw [hfred] at hexec₃
  rw [wrote_eq] at hi hexec₂ hexec₃
  exact ⟨_, _, _, hi, hexec₂, hexec₃, State.wroteTo_ok, State.wroteTo_ok,
    State.wroteTo_ok, State.wroteTo_elem_same hlen₂⟩

/-- Settles O49: the two ways round, by the congruences of `ADD` and `SUB`. -/
theorem addSubRoundTrip : Obligations.AddSubRoundTrip := by
  intro s sh d a b x y hs h hreg hne hx hy hxc hyc
  have hd := hs.shape sh h.1
  have hxw := hd.canonical_weaklyReduced hxc
  have hyw := hd.canonical_weaklyReduced hyc
  have hyp : y < sh.prime := hyc
  refine ⟨?addFirst, ?subFirst⟩
  case addFirst =>
    obtain ⟨r₁, hr₁, hw₁⟩ := hreg.add_completes hd hxw hyw
    obtain ⟨r₂, hr₂, hw₂⟩ := hreg.sub_completes (y := y) hd hw₁ (by omega)
    have hmod : r₂ ≡ x [MOD sh.prime] :=
      Nat.ModEq.add_right_cancel' y ((hd.sub_modEq hr₂).trans (hd.add_modEq hr₁))
    exact exec_two_then_fred hs h hne hy (by rw [exec_add h hx hy, hr₁, ended_ok])
      (fun t ht hdt hbt => by rw [exec_sub ht hdt hbt, hr₂, ended_ok]) (hreg.fred_eq_of_modEq hd hw₂ hmod hxc)
  case subFirst =>
    obtain ⟨r₁, hr₁, hw₁⟩ := hreg.sub_completes (y := y) hd hxw (by omega)
    obtain ⟨r₂, hr₂, hw₂⟩ := hreg.add_completes hd hw₁ hyw
    have hmod : r₂ ≡ x [MOD sh.prime] := (hd.add_modEq hr₂).trans (hd.sub_modEq hr₁)
    exact exec_two_then_fred hs h hne hy (by rw [exec_sub h hx hy, hr₁, ended_ok])
      (fun t ht hdt hbt => by rw [exec_add ht hdt hbt, hr₂, ended_ok]) (hreg.fred_eq_of_modEq hd hw₂ hmod hxc)

end Sys2Proof.Machine
end

section
/-! The inverter (rules R222 to R228): its three steps complete wherever products do, and raise the source to the power
`p - 2` modulo `p`; from these the statements O51 to O53. -/

namespace Sys2Proof.Machine

open Sys2Proof.Claim

/-! The steps complete on values closed under products. -/

section
variable {sh : Shape} {P : Nat → Prop} {a : Nat}

/-- Repeated squaring, then a product: what every entry of the chain is made of. -/
theorem Shape.ClosedUnderMul.sqrN_mul (h : sh.ClosedUnderMul P) {x y : Nat} (hx : P x) (hy : P y) (k : Nat) :
    Completes P (sh.sqrN x k >>= fun q => sh.mul q y) :=
  (h.sqrN hx k).bind fun q hq => h q y hq hy

theorem Shape.ClosedUnderMul.powLoop (h : sh.ClosedUnderMul P) (ha : P a) (w i : Nat) {aw : Nat} (haw : P aw) :
    Completes P (sh.powLoop a w i aw) := by
  induction i generalizing aw with
  | zero => exact .ok haw
  | succ i ih =>
    refine (h aw aw haw haw).bind fun t ht => ?_
    split_ifs
    · exact (h t a ht ha).bind fun u hu => ih hu
    · exact ih ht

theorem Shape.ClosedUnderMul.chainEntry (h : sh.ClosedUnderMul P) (ha : P a) (f : Factor) {acc : Nat} (hacc : P acc)
    (n : Nat) : Completes P (sh.chainEntry a f acc n) := by
  cases f with
  | one => exact (h acc acc hacc hacc).bind fun q hq => h q a hq ha
  | two => exact h.sqrN_mul hacc hacc n
  | three =>
    refine (h.sqrN hacc n).bind fun q hq => (h q acc hq hacc).bind fun r hr => ?_
    exact h.sqrN_mul hr hacc n
  | five =>
    refine (h.sqrN hacc n).bind fun q hq => (h q acc hq hacc).bind fun u hu => ?_
    refine (h.sqrN hu (2 * n)).bind fun q hq => (h q u hq hu).bind fun r hr => ?_
    exact h.sqrN_mul hr hacc n

theorem Shape.ClosedUnderMul.chainLoop (h : sh.ClosedUnderMul P) (ha : P a) (fs : List Factor) {acc : Nat} (hacc : P acc)
    (n : Nat) : Completes P (sh.chainLoop a fs acc n) := by
  induction fs generalizing acc n with
  | nil => exact .ok hacc
  | cons f fs ih => exact (h.chainEntry ha f hacc n).bind fun acc' hacc' => ih hacc' _

theorem Shape.ClosedUnderMul.inv (h : sh.ClosedUnderMul P) (ha : P a) : Completes P (sh.inv a) := by
  refine (h.powLoop ha _ _ ha).bind fun aw haw => (h.chainLoop ha _ ha 1).bind fun acc hacc => ?_
  exact h.sqrN_mul hacc haw sh.ls

/-- The number 0 is its own product, for every shape (rule R226). -/
theorem Shape.closedUnderMul_zero (sh : Shape) : sh.ClosedUnderMul (· = 0) := by
  rintro x y rfl rfl
  have hfold : sh.fold 0 = 0 := Shape.fold_of_lt sh.top_pos
  refine ⟨0, ?_, rfl⟩
  rw [Shape.mul, Shape.reduceLong, Nat.zero_mul, hfold, hfold, Shape.reduceSmall, hfold, if_pos (Nat.two_pow_pos _)]

end

/-! The exponents the steps reach (rules R222 to R224). -/

section
variable {cfg : Config} {sh : Shape} {a : Nat}

/-- The bits of the exponent from the top down: `w >> i` is twice `w >> (i + 1)`, and 1 more if bit `i` is set. -/
theorem div_two_pow_eq (w i : Nat) : w / 2 ^ i = w / 2 ^ (i + 1) + w / 2 ^ (i + 1) + if w.testBit i then 1 else 0 := by
  rw [Nat.testBit_eq_decide_div_mod_eq, Nat.pow_succ, ← Nat.div_div_eq_div_mul]
  split_ifs with hbit
  all_goals
    rw [decide_eq_true_eq] at hbit
    omega

/-- The loop of step 1 holds `a` to the part of `w` read so far (rule R222). -/
theorem Shape.Derived.powLoop_modEq (h : sh.Derived cfg) {w i aw r : Nat}
    (haw : aw ≡ a ^ (w / 2 ^ i) [MOD sh.prime]) (hr : sh.powLoop a w i aw = .ok r) : r ≡ a ^ w [MOD sh.prime] := by
  induction i generalizing aw with
  | zero =>
    obtain rfl := Except.ok.inj hr
    simpa using haw
  | succ i ih =>
    obtain ⟨t, ht, hr⟩ := bind_eq_ok.mp hr
    have hsq : t ≡ a ^ (w / 2 ^ (i + 1) + w / 2 ^ (i + 1)) [MOD sh.prime] :=
      (h.mul_modEq ht).trans (by rw [pow_add]; exact haw.mul haw)
    have hnext := div_two_pow_eq w i
    split_ifs at hr hnext with hbit
    · obtain ⟨u, hu, hr⟩ := bind_eq_ok.mp hr
      refine ih ?_ hr
      rw [hnext, pow_succ]
      exact (h.mul_modEq hu).trans (hsq.mul_right a)
    · refine ih ?_ hr
      rw [hnext]
      exact hsq

/-- Step 1 raises to `w` (rule R222). -/
theorem Shape.Derived.invStep1_modEq (h : sh.Derived cfg) {r : Nat} (hr : sh.invStep1 a = .ok r) :
    r ≡ a ^ sh.wlow [MOD sh.prime] := by
  refine h.powLoop_modEq ?_ hr
  have hpos : 0 < bitLength sh.wlow := lt_bitLength_iff.mpr h.wlow_bounds.1
  have hlow : 2 ^ (bitLength sh.wlow - 1) ≤ sh.wlow := lt_bitLength_iff.mp (by omega)
  have hhigh : sh.wlow < 2 ^ (bitLength sh.wlow - 1) * 2 := by
    rw [← Nat.pow_succ]
    exact bitLength_le_iff.mp (by omega)
  rw [show sh.wlow / 2 ^ (bitLength sh.wlow - 1) = 1 from
    (Nat.div_eq_iff (Nat.two_pow_pos _)).mpr (by omega), pow_one]

/-- The accumulator of step 2 with tracker `h`: `a` to a run of `h` ones (rule R223). -/
def Shape.IsRun (sh : Shape) (a x n : Nat) : Prop := x ≡ a ^ (2 ^ n - 1) [MOD sh.prime]

theorem Shape.isRun_one (sh : Shape) (a : Nat) : sh.IsRun a a 1 := by
  rw [Shape.IsRun, pow_one, pow_one]

/-- A run of `m` ones shifted by `n` and multiplied by a run of `n` ones is a run of `m + n` ones. -/
theorem Shape.Derived.isRun_append (h : sh.Derived cfg) {x y q r m n : Nat} (hx : sh.IsRun a x m) (hy : sh.IsRun a y n)
    (hq : sh.sqrN x n = .ok q) (hr : sh.mul q y = .ok r) : sh.IsRun a r (m + n) := by
  have hexp : (2 ^ m - 1) * 2 ^ n + (2 ^ n - 1) = 2 ^ (m + n) - 1 := by
    have hn := Nat.two_pow_pos n
    have hle : 2 ^ n ≤ 2 ^ m * 2 ^ n := Nat.le_mul_of_pos_left _ (Nat.two_pow_pos m)
    rw [Nat.sub_one_mul, Nat.pow_add]
    omega
  calc r ≡ q * y [MOD sh.prime] := h.mul_modEq hr
    _ ≡ (a ^ (2 ^ m - 1)) ^ 2 ^ n * a ^ (2 ^ n - 1) [MOD sh.prime] := ((h.sqrN_modEq hq).trans (hx.pow _)).mul hy
    _ = a ^ (2 ^ (m + n) - 1) := by rw [← pow_mul, ← pow_add, hexp]

theorem Shape.Derived.chainEntry_isRun (h : sh.Derived cfg) {f : Factor} {acc r n : Nat} (hacc : sh.IsRun a acc n)
    (hr : sh.chainEntry a f acc n = .ok r) : sh.IsRun a r (trackerAfter f n) := by
  cases f with
  | one =>
    obtain ⟨q, hq, hr⟩ := bind_eq_ok.mp hr
    refine h.isRun_append hacc (sh.isRun_one a) (q := q) ?_ hr
    rw [Shape.sqrN, hq]
    rfl
  | two =>
    obtain ⟨q, hq, hr⟩ := bind_eq_ok.mp hr
    rw [trackerAfter, Nat.two_mul]
    exact h.isRun_append hacc hacc hq hr
  | three =>
    simp only [Shape.chainEntry, bind_eq_ok] at hr
    obtain ⟨q₁, hq₁, r₁, hr₁, q₂, hq₂, hr⟩ := hr
    rw [trackerAfter, show 3 * n = n + n + n by ring]
    exact h.isRun_append (h.isRun_append hacc hacc hq₁ hr₁) hacc hq₂ hr
  | five =>
    simp only [Shape.chainEntry, bind_eq_ok] at hr
    obtain ⟨q₁, hq₁, u, hu, q₂, hq₂, r₂, hr₂, q₃, hq₃, hr⟩ := hr
    have hdouble : sh.IsRun a u (2 * n) := Nat.two_mul n ▸ h.isRun_append hacc hacc hq₁ hu
    rw [trackerAfter, show 5 * n = 2 * n + 2 * n + n by ring]
    exact h.isRun_append (h.isRun_append hdouble hdouble hq₂ hr₂) hacc hq₃ hr

theorem Shape.Derived.chainLoop_isRun (h : sh.Derived cfg) {fs : List Factor} {acc r n : Nat} (hacc : sh.IsRun a acc n)
    (hr : sh.chainLoop a fs acc n = .ok r) : sh.IsRun a r (fs.foldl (fun k f => trackerAfter f k) n) := by
  induction fs generalizing acc n with
  | nil =>
    obtain rfl := Except.ok.inj hr
    exact hacc
  | cons f fs ih =>
    obtain ⟨acc', hacc', hr⟩ := bind_eq_ok.mp hr
    exact ih (h.chainEntry_isRun hacc hacc') hr

/-- Step 2 raises to a run of `m` ones (rule R223). -/
theorem Shape.Derived.invStep2_isRun (h : sh.Derived cfg) (hinv : sh.invOk = true) {r : Nat}
    (hr : sh.invStep2 a = .ok r) : sh.IsRun a r sh.m := by
  have htracker : trackerOf sh.chain = sh.m := by rw [h.chain_eq, trackerOf_chainOf (h.one_le_m hinv)]
  exact htracker ▸ h.chainLoop_isRun (sh.isRun_one a) hr

/-- The inverter raises to `p - 2` (rules R105, R224, R228). -/
theorem Shape.Derived.inv_modEq (h : sh.Derived cfg) (hinv : sh.invOk = true) {r : Nat} (hr : sh.inv a = .ok r) :
    r ≡ a ^ (sh.prime - 2) [MOD sh.prime] := by
  simp only [Shape.inv, bind_eq_ok] at hr
  obtain ⟨aw, haw, acc, hacc, q, hq, hr⟩ := hr
  have hls := h.invOk_iff.mp hinv
  calc r ≡ q * aw [MOD sh.prime] := h.mul_modEq hr
    _ ≡ (a ^ (2 ^ sh.m - 1)) ^ 2 ^ sh.ls * a ^ sh.wlow [MOD sh.prime] :=
        ((h.sqrN_modEq hq).trans ((h.invStep2_isRun hinv hacc).pow _)).mul (h.invStep1_modEq haw)
    _ = a ^ (sh.prime - 2) := by
        rw [← pow_mul, ← pow_add, h.exponent_identity (by omega), h.m_eq]

end

/-! The statements. -/

theorem exec_inv_ended {s : State} {sh : Shape} {d a : Reg} {x : Nat} (h : Ready s sh [d, a]) (hinv : sh.invOk = true)
    (hx : s.elem a.toNat = some x) : exec (.inv d a) s = ended s 0x30 d (sh.inv x) :=
  (exec_inv_of_invOk h.1 hinv d a).trans (commit_unaryElem _ _ h hx)

theorem Shape.Regular.inv_completes {cfg : Config} {sh : Shape} (hreg : sh.Regular) (h : sh.Derived cfg)
    (hinv : sh.invOk = true) {x : Nat} (hx : sh.WeaklyReduced x) :
    ∃ r, sh.inv x = .ok r ∧ sh.WeaklyReduced r ∧ r ≡ x ^ (sh.prime - 2) [MOD sh.prime] := by
  obtain ⟨r, hr, hw⟩ := (hreg.closedUnderMul h).inv hx
  exact ⟨r, hr, hw, h.inv_modEq hinv hr⟩

/-- Settles O51: completion on weakly reduced values, and the exponent. -/
theorem invWritesFermatPower : Obligations.InvWritesFermatPower := by
  intro s sh d a x hs h hreg hinv hx hw
  obtain ⟨r, hr, hrw, hmod⟩ := hreg.inv_completes (hs.shape sh h.1) hinv hw
  exact ⟨r, by rw [exec_inv_ended h hinv hx, hr, ended_ok], hrw, hmod⟩

/-- Settles O52: completion on the number 0 alone. -/
theorem invOfZeroIsZero : Obligations.InvOfZeroIsZero := by
  intro s sh d a _ h hinv hx
  obtain ⟨r, hr, rfl⟩ := sh.closedUnderMul_zero.inv (a := 0) rfl
  rw [exec_inv_ended h hinv hx, hr, ended_ok]

/-- `INV` answers `OK` only with `INV_OK = 1`. -/
theorem invOk_of_exec_inv {s t : State} {sh : Shape} {d a : Reg} (hsh : s.shape = some sh)
    (h : exec (.inv d a) s = .next t) (hok : Ok t) : sh.invOk = true := by
  cases hinv : sh.invOk with
  | true => rfl
  | false =>
    rw [(inverterRefusesShapeWithoutChain s sh d a 0 hsh hinv).1] at h
    exact absurd (code_eq_zero_of_failed h hok) (by decide)

/-- Fermat's little theorem, as the inverter uses it. -/
theorem mul_pow_sub_two_modEq {p x : Nat} (hp : p.Prime) (hx : ¬ p ∣ x) : x * x ^ (p - 2) ≡ 1 [MOD p] := by
  rw [← pow_succ', show p - 2 + 1 = p - 1 by have := hp.two_le; omega, ← Nat.totient_prime hp]
  exact Nat.ModEq.pow_totient ((Nat.Prime.coprime_iff_not_dvd hp).mpr hx).symm

/-- Settles O53: the exponent, whenever `INV` answers `OK`; and Fermat's little theorem. -/
theorem inverseTimesElementIsOne : Obligations.InverseTimesElementIsOne := by
  refine ⟨fun s t sh d a x hs hsh hx h hok => ?fermatPower,
    fun s sh d a x hs h hreg hinv hp hne hx hw hdvd => ?product⟩
  case fermatPower =>
    have hinv := invOk_of_exec_inv hsh h hok
    obtain ⟨r, hr, ht⟩ := unaryElem_completed hs hsh hx hok ((exec_inv_of_invOk hsh hinv d a).symm.trans h)
    exact ⟨r, ht, (hs.shape sh hsh).inv_modEq hinv hr⟩
  case product =>
    have hd := hs.shape sh h.1
    obtain ⟨r₁, hr₁, hw₁, hmod₁⟩ := hreg.inv_completes hd hinv hw
    obtain ⟨r₂, hr₂, hw₂⟩ := hreg.mul_completes hd hw hw₁
    have hone : sh.fred r₂ = 1 := by
      refine hreg.fred_eq_of_modEq hd hw₂ ?_ hp.one_lt
      exact (hd.mul_modEq hr₂).trans ((hmod₁.mul_left x).trans (mul_pow_sub_two_modEq hp hdvd))
    have hsources : Ready s sh [d, a, a] := h.mono (by simp)
    obtain ⟨t, u, v, ht, hu, hv, -, -, -, hvalue⟩ := exec_two_then_fred (i := .inv d a) (j := .mul d a d) hs hsources hne
      hx (by rw [exec_inv_ended h hinv hx, hr₁, ended_ok])
      (fun t ht hdt hat => by rw [exec_mul (ht.mono (by simp)) hat hdt, hr₂, ended_ok]) hone
    exact ⟨t, u, v, ht, hu, hv, hvalue⟩

end Sys2Proof.Machine
end

section
/-! `SPLIT` and the checks of both sharing commands (rules R250 to R256): the run of coefficients, the polynomial's value
modulo `p`, and how the commands end; from these the statements O54, O55 and O59. -/

namespace Sys2Proof.Machine

open Sys2Proof.Claim

/-! Runs of registers (rules R250, R255). -/

section
variable {s : State} {base n : Nat}

theorem State.readRun_of_elems {co : Nat → Nat} (h : ∀ i < n, s.elem (base + i) = some (co i)) :
    s.readRun base n = .ok ((List.range n).map co) :=
  State.readRun_eq_ok.mpr ⟨by simp, fun i hi => by simp [h i hi, hi]⟩

theorem State.readShares_of_elems {xs ys : Nat → Nat}
    (h : ∀ i < n, s.elem (base + 2 * i) = some (xs i) ∧ s.elem (base + 2 * i + 1) = some (ys i)) :
    s.readShares base n = .ok ((List.range n).map fun i => (xs i, ys i)) :=
  State.readShares_eq_ok.mpr ⟨by simp, fun i hi => by simp [h i hi, hi]⟩

/-- Reading a run fails only where a register holds no value. -/
theorem State.readRun_error_kind {k : ErrorKind} (h : s.readRun base n = .error k) : k = .uninit := by
  induction n generalizing base with
  | zero => cases h
  | succ n ih =>
    rcases bind_eq_error.mp h with hv | ⟨v, -, h⟩
    · exact (State.readElem_eq_error.mp hv).2
    · rcases bind_eq_error.mp h with hvs | ⟨vs, -, h⟩
      · exact ih hvs
      · cases h

theorem State.readShares_error_kind {k : ErrorKind} (h : s.readShares base n = .error k) : k = .uninit := by
  induction n generalizing base with
  | zero => cases h
  | succ n ih =>
    rcases bind_eq_error.mp h with hx | ⟨x, -, h⟩
    · exact (State.readElem_eq_error.mp hx).2
    · rcases bind_eq_error.mp h with hy | ⟨y, -, h⟩
      · exact (State.readElem_eq_error.mp hy).2
      · rcases bind_eq_error.mp h with hrest | ⟨rest, -, h⟩
        · exact ih hrest
        · cases h

theorem State.readRun_of_none (h : ∃ i < n, s.elem (base + i) = none) : s.readRun base n = .error .uninit := by
  cases hrun : s.readRun base n with
  | error k => rw [State.readRun_error_kind hrun]
  | ok vs =>
    obtain ⟨i, hi, hnone⟩ := h
    obtain ⟨hlen, helems⟩ := State.readRun_eq_ok.mp hrun
    have hsome := helems i hi
    rw [hnone, List.getElem?_eq_getElem (by omega)] at hsome
    cases hsome

theorem State.readShares_of_none (h : ∃ i < 2 * n, s.elem (base + i) = none) : s.readShares base n = .error .uninit := by
  cases hrun : s.readShares base n with
  | error k => rw [State.readShares_error_kind hrun]
  | ok ps =>
    obtain ⟨i, hi, hnone⟩ := h
    obtain ⟨hlen, helems⟩ := State.readShares_eq_ok.mp hrun
    obtain ⟨hx, hy⟩ := helems (i / 2) (by omega)
    rcases Nat.mod_two_eq_zero_or_one i with heven | hodd
    · rw [show base + 2 * (i / 2) = base + i by omega, hnone, List.getElem?_eq_getElem (by simp; omega)] at hx
      cases hx
    · rw [show base + 2 * (i / 2) + 1 = base + i by omega, hnone, List.getElem?_eq_getElem (by simp; omega)] at hy
      cases hy

theorem State.checkRun_of_le {count : Nat} (h : base + count ≤ s.cfg.nreg) : s.checkRun base count = .ok () :=
  State.checkRun_eq_ok.mpr h

/-- A field or a run outside the file fails the two register checks, one after the other (rule R283). -/
theorem State.checkRegs_checkRun_badRegister {α : Type} {rs : List Reg} {count : Nat}
    (h : (∃ r ∈ rs, s.cfg.nreg ≤ r.toNat) ∨ s.cfg.nreg < base + count) (g : Unit → Except ErrorKind α) :
    (s.checkRegs rs >>= fun _ => s.checkRun base count >>= g) = .error .badRegister := by
  cases hcheck : s.checkRegs rs with
  | error k =>
    obtain ⟨-, rfl⟩ := State.checkRegs_eq_error.mp hcheck
    rfl
  | ok _ =>
    have hfields := State.checkRegs_eq_ok.mp hcheck
    have hrun : s.cfg.nreg < base + count := h.resolve_left fun ⟨r, hr, hle⟩ => Nat.not_le_of_gt (hfields r hr) hle
    rw [ok_bind, State.checkRun, require_of_not (Nat.not_le_of_gt hrun), error_bind]

/-- The reads of `SPLIT` fail when the point or a coefficient holds no value (rule R251). -/
theorem State.split_reads_uninit {α : Type} {b : Nat} (h : s.elem b = none ∨ ∃ i < n + 1, s.elem (base + i) = none)
    (g : Nat → List Nat → Nat → Except ErrorKind α) :
    (s.readElem base >>= fun c0 => s.readRun (base + 1) n >>= fun cs => s.readElem b >>= g c0 cs) = .error .uninit := by
  cases hfirst : s.readElem base with
  | error k =>
    obtain ⟨-, rfl⟩ := State.readElem_eq_error.mp hfirst
    rfl
  | ok c0 =>
    rw [ok_bind]
    cases hrest : s.readRun (base + 1) n with
    | error k =>
      obtain rfl := State.readRun_error_kind hrest
      rfl
    | ok cs =>
      have hpoint : s.elem b = none := h.resolve_right fun ⟨i, hi, hnone⟩ => by
        have hrun : s.readRun base (n + 1) = .ok (c0 :: cs) := by rw [State.readRun, hfirst, ok_bind, hrest]; rfl
        rw [State.readRun_of_none ⟨i, hi, hnone⟩] at hrun
        cases hrun
      rw [ok_bind, State.readElem_of_none hpoint, error_bind]

end

/-! The polynomial (rules R251, R252). -/

section
variable {cfg : Config} {sh : Shape} {x : Nat}

/-- The loop adds to `y` the terms `c·xp·x`, `c·xp·x²`, and so on. -/
theorem Shape.Derived.splitLoop_modEq (h : sh.Derived cfg) {cs : List Nat} {xp y r : Nat}
    (hr : sh.splitLoop x cs xp y = .ok r) :
    r ≡ y + ∑ i ∈ Finset.range cs.length, cs.getD i 0 * (xp * x ^ (i + 1)) [MOD sh.prime] := by
  induction cs generalizing xp y with
  | nil =>
    obtain rfl := Except.ok.inj hr
    rfl
  | cons c cs ih =>
    simp only [Shape.splitLoop, bind_eq_ok] at hr
    obtain ⟨xp', hxp, t, ht, y', hy, hr⟩ := hr
    have hpow := h.mul_modEq hxp
    have hterm : t ≡ c * (xp * x) [MOD sh.prime] := (h.mul_modEq ht).trans (hpow.mul_left c)
    have hrest : ∑ i ∈ Finset.range cs.length, cs.getD i 0 * (xp' * x ^ (i + 1)) ≡
        ∑ i ∈ Finset.range cs.length, cs.getD i 0 * (xp * x ^ (i + 1 + 1)) [MOD sh.prime] := by
      refine Nat.ModEq.sum fun i _ => Nat.ModEq.mul_left _ ?_
      rw [pow_succ' x (i + 1), ← mul_assoc]
      exact hpow.mul_right _
    calc r ≡ y' + ∑ i ∈ Finset.range cs.length, cs.getD i 0 * (xp' * x ^ (i + 1)) [MOD sh.prime] := ih hr
      _ ≡ y + c * (xp * x) + ∑ i ∈ Finset.range cs.length, cs.getD i 0 * (xp * x ^ (i + 1 + 1)) [MOD sh.prime] :=
          ((h.add_modEq hy).trans (hterm.add_left y)).add hrest
      _ = y + ∑ i ∈ Finset.range (c :: cs).length, (c :: cs).getD i 0 * (xp * x ^ (i + 1)) := by
          rw [List.length_cons, Finset.sum_range_succ']
          simp only [List.getD_cons_succ, List.getD_cons_zero, zero_add, pow_one]
          ring

/-- `split` of the coefficients `co 0, …, co n` is the polynomial's value modulo `p` (rule R252). -/
theorem Shape.Derived.split_modEq (h : sh.Derived cfg) {co : Nat → Nat} {n r : Nat}
    (hr : sh.split (co 0) ((List.range n).map fun i => co (i + 1)) x = .ok r) :
    r ≡ ∑ i ∈ Finset.range (n + 1), co i * x ^ i [MOD sh.prime] := by
  obtain ⟨y, hy, hr⟩ := bind_eq_ok.mp hr
  obtain rfl := Except.ok.inj hr
  have hsum : ∑ i ∈ Finset.range n, ((List.range n).map fun i => co (i + 1)).getD i 0 * (1 * x ^ (i + 1)) =
      ∑ i ∈ Finset.range n, co (i + 1) * x ^ (i + 1) :=
    Finset.sum_congr rfl fun i hi => by simp [Finset.mem_range.mp hi]
  have hloop := h.splitLoop_modEq hy
  rw [List.length_map, List.length_range, hsum, add_comm] at hloop
  rw [Finset.sum_range_succ', pow_zero, mul_one]
  exact (sh.fred_modEq y).trans hloop

/-! Completion (rule R187). -/

theorem Shape.Derived.weaklyReduced_one (h : sh.Derived cfg) : sh.WeaklyReduced 1 := by
  have hpos := h.word_pos
  have hlt := h.word_lt_top
  have htop := h.top_le
  exact lt_min (by omega) (by omega)

theorem Shape.Regular.splitLoop_completes (hreg : sh.Regular) (h : sh.Derived cfg) (hx : sh.WeaklyReduced x)
    {cs : List Nat} (hcs : ∀ c ∈ cs, sh.WeaklyReduced c) {xp y : Nat} (hxp : sh.WeaklyReduced xp)
    (hy : sh.WeaklyReduced y) : Completes sh.WeaklyReduced (sh.splitLoop x cs xp y) := by
  have hmul := hreg.closedUnderMul h
  induction cs generalizing xp y with
  | nil => exact .ok hy
  | cons c cs ih =>
    rw [List.forall_mem_cons] at hcs
    refine (hmul xp x hxp hx).bind fun xp' hxp' => (hmul c xp' hcs.1 hxp').bind fun t ht => ?_
    exact Completes.bind (hreg.add_completes h hy ht) fun y' hy' => ih hcs.2 hxp' hy'

/-- A final reduction makes a weakly reduced value canonical. -/
theorem Shape.Regular.fred_canonical (hreg : sh.Regular) (h : sh.Derived cfg) {v : Nat} (hv : sh.WeaklyReduced v) :
    sh.Canonical (sh.fred v) := by
  rw [Shape.Canonical, hreg.fred_eq_mod h hv]
  exact Nat.mod_lt _ h.prime_pos

theorem Shape.Regular.split_completes (hreg : sh.Regular) (h : sh.Derived cfg) (hx : sh.WeaklyReduced x) {c0 : Nat}
    {cs : List Nat} (hc0 : sh.WeaklyReduced c0) (hcs : ∀ c ∈ cs, sh.WeaklyReduced c) :
    Completes sh.Canonical (sh.split c0 cs x) :=
  (hreg.splitLoop_completes h hx hcs h.weaklyReduced_one hc0).bind fun _ hy => .ok (hreg.fred_canonical h hy)

/-- A canonical value is what any number congruent to it leaves modulo `p`. -/
theorem Shape.Canonical.eq_mod {v w : Nat} (hv : sh.Canonical v) (hmod : v ≡ w [MOD sh.prime]) : v = w % sh.prime :=
  (Nat.mod_eq_of_lt hv).symm.trans hmod

end

/-! How `SPLIT` ends. -/

section
variable {s : State} {sh : Shape} {d a b : Reg} {parts : Imm32}

/-- The outcome of `SPLIT` on a run of coefficients that all hold a value. -/
theorem exec_split {co : Nat → Nat} {x : Nat} (h : Ready s sh [d, b]) (hparts : 2 ≤ parts.toNat)
    (hrun : a.toNat + parts.toNat ≤ s.cfg.nreg) (hco : ∀ i < parts.toNat, s.elem (a.toNat + i) = some (co i))
    (hx : s.elem b.toNat = some x) :
    exec (.split d a b parts) s =
      ended s 0x40 d (sh.split (co 0) ((List.range (parts.toNat - 1)).map fun i => co (i + 1)) x) := by
  have hfirst : s.elem a.toNat = some (co 0) := hco 0 (by omega)
  have hrest : ∀ i < parts.toNat - 1, s.elem (a.toNat + 1 + i) = some (co (i + 1)) := fun i hi => by
    rw [show a.toNat + 1 + i = a.toNat + (i + 1) by omega, hco (i + 1) (by omega)]
  change execSplit d a b parts s = _
  rw [execSplit, State.needShape_of_some h.1, ok_bind, require_of hparts, ok_bind, State.checkRegs_of_lt h.2, ok_bind,
    State.checkRun_of_le hrun, ok_bind, State.readElem_of_some hfirst, ok_bind, State.readRun_of_elems hrest, ok_bind,
    State.readElem_of_some hx, ok_bind, commit_write]
  rfl

/-- What an answer `OK` of `SPLIT` says of its operands. -/
theorem split_operands_of_ok {t : State} (hsh : s.shape = some sh) (h : exec (.split d a b parts) s = .next t)
    (hok : Ok t) : Ready s sh [d, b] ∧ 2 ≤ parts.toNat ∧ a.toNat + parts.toNat ≤ s.cfg.nreg := by
  obtain ⟨u, data, hu, -⟩ := commit_completed h hok
  simp only [bind_eq_ok, State.checkRegs_eq_ok, State.checkRun_eq_ok, require_eq_ok, decide_eq_true_eq] at hu
  obtain ⟨_, -, -, hparts, -, hregs, -, hrun, -⟩ := hu
  exact ⟨⟨hsh, hregs⟩, hparts, hrun⟩

end

/-- Settles O54: the canonical value congruent to the polynomial's. -/
theorem splitEvaluatesPolynomial : Obligations.SplitEvaluatesPolynomial := by
  intro s sh d a b parts co x hs h hreg hparts hrun hco hx hxw
  have hd := hs.shape sh h.1
  obtain ⟨n, hn⟩ : ∃ n, parts.toNat = n + 1 := ⟨parts.toNat - 1, by omega⟩
  rw [exec_split h hparts hrun (fun i hi => (hco i hi).1) hx, hn, Nat.add_sub_cancel]
  obtain ⟨r, hr, hcanon⟩ := hreg.split_completes hd hxw (hco 0 (by omega)).2
    (cs := (List.range n).map fun i => co (i + 1)) (by simpa using fun i hi => (hco (i + 1) (by omega)).2)
  rw [hr, ended_ok, hcanon.eq_mod (hd.split_modEq hr)]

/-- Settles O55: the outcome on the operands an answer `OK` has checked. -/
theorem splitCongruence : Obligations.SplitCongruence := by
  intro s t sh d a b parts co x hs hsh hco hx h hok
  have hd := hs.shape sh hsh
  obtain ⟨hready, hparts, hrun⟩ := split_operands_of_ok hsh h hok
  obtain ⟨n, hn⟩ : ∃ n, parts.toNat = n + 1 := ⟨parts.toNat - 1, by omega⟩
  have hexec := exec_split hready hparts hrun hco hx
  rw [hn, Nat.add_sub_cancel] at hexec
  rcases hr : sh.split (co 0) ((List.range n).map fun i => co (i + 1)) x with k | r
  · rw [hr, ended_error] at hexec
    exact absurd (code_eq_zero_of_failed (hexec.symm.trans h) hok) (errorCode_ne_zero k)
  · rw [hr, ended_ok] at hexec
    obtain rfl : s.wroteTo d r = t := Host.Outcome.next.inj (hexec.symm.trans h)
    exact ⟨r, hexec, State.wroteTo_elem_same (hready.lt_length (by simp) hs), hn ▸ hd.split_modEq hr⟩

/-- Settles O59: each check with those before it passed. -/
theorem sharingErrors : Obligations.SharingErrors := by
  intro s sh d a b parts hsh
  have hsplit : exec (.split d a b parts) s = execSplit d a b parts s := rfl
  have hjoin : exec (.join d a parts) s = execJoin d a parts s := rfl
  rw [hsplit, hjoin, execSplit, execJoin, State.needShape_of_some hsh, ok_bind, ok_bind]
  refine ⟨fun hparts => ⟨?splitParts, fun hinv => ?joinParts⟩, fun hparts => ⟨fun hregs => ?splitRegister,
    fun hd hb hrun hnone => ?splitUninit, fun hinv => ⟨fun hregs => ?joinRegister, fun hd hrun =>
    ⟨fun hmax => ?joinAllocation, fun hmax hnone => ?joinUninit⟩⟩⟩⟩
  case splitParts =>
    rw [require_of_not (Nat.not_le_of_gt hparts), error_bind, commit_failed]
    rfl
  case joinParts =>
    rw [hinv, require_true, ok_bind, require_of_not (Nat.not_le_of_gt hparts), error_bind, commit_failed]
    rfl
  case splitRegister =>
    rw [require_of hparts, ok_bind]
    rw [State.checkRegs_checkRun_badRegister (by simpa [or_assoc] using hregs), commit_failed]
    rfl
  case splitUninit =>
    rw [require_of hparts, ok_bind, State.checkRegs_of_lt (by simpa using ⟨hd, hb⟩), ok_bind, State.checkRun_of_le hrun,
      ok_bind, State.split_reads_uninit (by rwa [Nat.sub_add_cancel (by omega)]), commit_failed]
    rfl
  case joinRegister =>
    rw [hinv, require_true, ok_bind, require_of hparts, ok_bind]
    rw [State.checkRegs_checkRun_badRegister (by simpa using hregs), commit_failed]
    rfl
  case joinAllocation =>
    rw [hinv, require_true, ok_bind, require_of hparts, ok_bind, State.checkRegs_of_lt (by simpa using hd), ok_bind,
      State.checkRun_of_le hrun, ok_bind, require_of_not (Nat.not_le_of_gt hmax), error_bind, commit_failed]
    rfl
  case joinUninit =>
    rw [hinv, require_true, ok_bind, require_of hparts, ok_bind, State.checkRegs_of_lt (by simpa using hd), ok_bind,
      State.checkRun_of_le hrun, ok_bind, require_of hmax, ok_bind, State.readShares_of_none hnone, error_bind,
      commit_failed]
    rfl

end Sys2Proof.Machine
end

section
/-! `JOIN` (rules R256 to R260): the value it computes modulo `p`, as Lagrange interpolation at zero with one common
denominator; when it completes and when a difference of points underflows; from these the statements O56 to O58. -/

namespace Sys2Proof.Machine

open Sys2Proof.Claim

/-! Interpolation at zero with a common denominator, in any commutative ring (rule R256). -/

section
variable {R : Type} [CommRing R]

/-- `den[i] = x_i · Π_{j≠i} (x_j - x_i)` of `n` points. -/
def shareDen (x : Nat → R) (n i : Nat) : R := x i * ∏ j ∈ (Finset.range n).erase i, (x j - x i)

/-- The sum of the shares over the common denominator: `Σ_i (Π_j x_j) · y_i · Π_{j≠i} den[j]`. -/
def shareSum (x y : Nat → R) (n : Nat) : R :=
  ∑ i ∈ Finset.range n, (∏ j ∈ Finset.range n, x j) * y i * ∏ j ∈ (Finset.range n).erase i, shareDen x n j

/-- The common denominator. -/
def shareDenProd (x : Nat → R) (n : Nat) : R := ∏ i ∈ Finset.range n, shareDen x n i

/-- A zero or repeated point makes the common denominator vanish (rule R257). -/
theorem shareDenProd_eq_zero {x : Nat → R} {n : Nat}
    (h : (∃ i < n, x i = 0) ∨ ∃ i < n, ∃ j < n, i ≠ j ∧ x i = x j) : shareDenProd x n = 0 := by
  rcases h with ⟨i, hi, hx⟩ | ⟨i, hi, j, hj, hne, hx⟩
  · refine Finset.prod_eq_zero (Finset.mem_range.mpr hi) ?_
    rw [shareDen, hx, zero_mul]
  · refine Finset.prod_eq_zero (Finset.mem_range.mpr hi) ?_
    rw [shareDen, Finset.prod_eq_zero (Finset.mem_erase.mpr ⟨hne.symm, Finset.mem_range.mpr hj⟩) (sub_eq_zero.mpr hx.symm),
      mul_zero]

end

section
variable {K : Type} [Field K] {x : Nat → K} {n : Nat}

theorem shareDen_ne_zero (hinj : Set.InjOn x (Finset.range n)) (hne : ∀ i < n, x i ≠ 0) {i : Nat} (hi : i < n) :
    shareDen x n i ≠ 0 := by
  refine mul_ne_zero (hne i hi) (Finset.prod_ne_zero_iff.mpr fun j hj => sub_ne_zero.mpr fun hx => ?_)
  obtain ⟨hji, hj⟩ := Finset.mem_erase.mp hj
  exact hji (hinj hj (by simpa using hi) hx)

/-- The Lagrange basis polynomial at zero, with the denominator of rule R256. -/
theorem eval_zero_basis {i : Nat} (hi : i < n) (hx : x i ≠ 0) :
    (Lagrange.basis (Finset.range n) x i).eval 0 = (∏ j ∈ Finset.range n, x j) / shareDen x n i := by
  have hfactor : ∀ j, (Lagrange.basisDivisor (x i) (x j)).eval 0 = x j / (x j - x i) := fun j => by
    rw [Lagrange.basisDivisor, Polynomial.eval_mul, Polynomial.eval_C, Polynomial.eval_sub, Polynomial.eval_X,
      Polynomial.eval_C, zero_sub, mul_neg, ← neg_mul, ← inv_neg, neg_sub, div_eq_inv_mul]
  rw [Lagrange.basis, Polynomial.eval_prod, Finset.prod_congr rfl fun j _ => hfactor j, Finset.prod_div_distrib,
    ← Finset.mul_prod_erase _ _ (Finset.mem_range.mpr hi), shareDen, mul_div_mul_left _ _ hx]

/-- Over a field, the sum over the common denominator is the value at zero of the polynomial through the shares (rule
R260). -/
theorem shareSum_div_eq_eval {y : Nat → K} {f : Polynomial K} (hinj : Set.InjOn x (Finset.range n))
    (hne : ∀ i < n, x i ≠ 0) (hdeg : f.degree < n) (hy : ∀ i < n, y i = f.eval (x i)) :
    shareSum x y n / shareDenProd x n = f.eval 0 := by
  have hterm : ∀ i ∈ Finset.range n,
      (∏ j ∈ Finset.range n, x j) * y i * (∏ j ∈ (Finset.range n).erase i, shareDen x n j) / shareDenProd x n =
        f.eval (x i) * (Lagrange.basis (Finset.range n) x i).eval 0 := fun i hi => by
    have hlt := Finset.mem_range.mp hi
    have hrest : ∏ j ∈ (Finset.range n).erase i, shareDen x n j ≠ 0 :=
      Finset.prod_ne_zero_iff.mpr fun j hj => shareDen_ne_zero hinj hne (Finset.mem_range.mp (Finset.mem_erase.mp hj).2)
    rw [eval_zero_basis hlt (hne i hlt), shareDenProd, ← Finset.mul_prod_erase _ (shareDen x n) hi,
      mul_div_mul_right _ _ hrest, hy i hlt]
    ring
  have hinterp := congrArg (Polynomial.eval 0) (Lagrange.eq_interpolate hinj (f := f) (by rwa [Finset.card_range]))
  simp only [Lagrange.interpolate_apply, Polynomial.eval_finsetSum, Polynomial.eval_mul, Polynomial.eval_C] at hinterp
  rw [hinterp, shareSum, Finset.sum_div]
  exact Finset.sum_congr rfl hterm

end

/-! The loops of `JOIN` modulo `p`. -/

theorem eraseIdx_map_range {α : Type} (f : Nat → α) {n k : Nat} (hk : k < n) :
    ((List.range n).map f).eraseIdx k = ((List.range n).erase k).map f := by
  have herase := List.nodup_range.erase_getElem k (by simpa using hk)
  rw [List.getElem_range] at herase
  rw [List.eraseIdx_map, herase]

theorem prod_map_range_erase {R : Type} [CommRing R] (f : Nat → R) (n k : Nat) :
    (((List.range n).erase k).map f).prod = ∏ j ∈ (Finset.range n).erase k, f j := rfl

theorem prod_map_range {R : Type} [CommRing R] (f : Nat → R) (n : Nat) :
    ((List.range n).map f).prod = ∏ j ∈ Finset.range n, f j := rfl

section
variable {cfg : Config} {sh : Shape}

theorem Shape.Derived.mul_cast (h : sh.Derived cfg) {x y r : Nat} (hr : sh.mul x y = .ok r) :
    (r : ZMod sh.prime) = x * y := by
  rw [← Nat.cast_mul]
  exact (ZMod.natCast_eq_natCast_iff _ _ _).mpr (h.mul_modEq hr)

theorem Shape.Derived.add_cast (h : sh.Derived cfg) {x y r : Nat} (hr : sh.add x y = .ok r) :
    (r : ZMod sh.prime) = x + y := by
  rw [← Nat.cast_add]
  exact (ZMod.natCast_eq_natCast_iff _ _ _).mpr (h.add_modEq hr)

theorem Shape.Derived.sub_cast (h : sh.Derived cfg) {x y r : Nat} (hr : sh.sub x y = .ok r) :
    (r : ZMod sh.prime) = x - y := by
  rw [eq_sub_iff_add_eq, ← Nat.cast_add]
  exact (ZMod.natCast_eq_natCast_iff _ _ _).mpr (h.sub_modEq hr)

theorem Shape.Derived.inv_cast (h : sh.Derived cfg) (hinv : sh.invOk = true) {x r : Nat} (hr : sh.inv x = .ok r) :
    (r : ZMod sh.prime) = (x : ZMod sh.prime) ^ (sh.prime - 2) := by
  rw [← Nat.cast_pow]
  exact (ZMod.natCast_eq_natCast_iff _ _ _).mpr (h.inv_modEq hinv hr)

theorem Shape.fred_cast (sh : Shape) (x : Nat) : (sh.fred x : ZMod sh.prime) = x :=
  (ZMod.natCast_eq_natCast_iff _ _ _).mpr (sh.fred_modEq x)

theorem Shape.Derived.foldlM_mul_cast (h : sh.Derived cfg) {vs : List Nat} {v r : Nat} (hr : vs.foldlM sh.mul v = .ok r) :
    (r : ZMod sh.prime) = v * (vs.map fun w : Nat => (w : ZMod sh.prime)).prod := by
  induction vs generalizing v with
  | nil =>
    obtain rfl := Except.ok.inj hr
    simp
  | cons w vs ih =>
    obtain ⟨t, ht, hr⟩ := bind_eq_ok.mp hr
    rw [ih hr, h.mul_cast ht, List.map_cons, List.prod_cons, mul_assoc]

theorem Shape.Derived.foldlM_add_cast (h : sh.Derived cfg) {vs : List Nat} {v r : Nat} (hr : vs.foldlM sh.add v = .ok r) :
    (r : ZMod sh.prime) = v + (vs.map fun w : Nat => (w : ZMod sh.prime)).sum := by
  induction vs generalizing v with
  | nil =>
    obtain rfl := Except.ok.inj hr
    simp
  | cons w vs ih =>
    obtain ⟨t, ht, hr⟩ := bind_eq_ok.mp hr
    rw [ih hr, h.add_cast ht, List.map_cons, List.sum_cons, add_assoc]

theorem Shape.Derived.product_cast (h : sh.Derived cfg) {vs : List Nat} {r : Nat} (hr : sh.product vs = .ok r) :
    (r : ZMod sh.prime) = (vs.map fun w : Nat => (w : ZMod sh.prime)).prod := by
  cases vs with
  | nil =>
    obtain rfl := Except.ok.inj hr
    simp
  | cons v vs => rw [h.foldlM_mul_cast hr, List.map_cons, List.prod_cons]

theorem Shape.Derived.sum_cast (h : sh.Derived cfg) {vs : List Nat} {r : Nat} (hr : sh.sum vs = .ok r) :
    (r : ZMod sh.prime) = (vs.map fun w : Nat => (w : ZMod sh.prime)).sum := by
  cases vs with
  | nil =>
    obtain rfl := Except.ok.inj hr
    simp
  | cons v vs => rw [h.foldlM_add_cast hr, List.map_cons, List.sum_cons]

/-- One factor of a denominator (rule R256). -/
def Shape.denStep (sh : Shape) (xi den xj : Nat) : Except ErrorKind Nat := sh.sub xj xi >>= sh.mul den

theorem Shape.denominator_eq (sh : Shape) {xs : Nat → Nat} {n i : Nat} (hi : i < n) :
    sh.denominator ((List.range n).map xs) i (xs i) =
      (((List.range n).erase i).map xs).foldlM (sh.denStep (xs i)) (xs i) := by
  rw [← eraseIdx_map_range xs hi]
  rfl

theorem Shape.Derived.foldlM_denStep_cast (h : sh.Derived cfg) {xi : Nat} {vs : List Nat} {v r : Nat}
    (hr : vs.foldlM (sh.denStep xi) v = .ok r) :
    (r : ZMod sh.prime) = v * (vs.map fun w : Nat => (w - xi : ZMod sh.prime)).prod := by
  induction vs generalizing v with
  | nil =>
    obtain rfl := Except.ok.inj hr
    simp
  | cons w vs ih =>
    obtain ⟨t, ht, hr⟩ := bind_eq_ok.mp hr
    obtain ⟨d, hd, ht⟩ := bind_eq_ok.mp ht
    rw [ih hr, h.mul_cast ht, h.sub_cast hd, List.map_cons, List.prod_cons, mul_assoc]

theorem Shape.Derived.denominator_cast (h : sh.Derived cfg) {xs : Nat → Nat} {n i r : Nat} (hi : i < n)
    (hr : sh.denominator ((List.range n).map xs) i (xs i) = .ok r) :
    (r : ZMod sh.prime) = shareDen (fun j => (xs j : ZMod sh.prime)) n i := by
  rw [sh.denominator_eq hi] at hr
  rw [h.foldlM_denStep_cast hr, List.map_map, shareDen, ← prod_map_range_erase]
  rfl

/-- The denominators and numerators from share `i` on, modulo `p` (rule R256). -/
theorem Shape.Derived.fractions_cast (h : sh.Derived cfg) {xs ys : Nat → Nat} {np n i m : Nat} (him : i + m ≤ n)
    {fr : List (Nat × Nat)}
    (hr : sh.fractions ((List.range n).map xs) np i ((List.range' i m).map fun k => (xs k, ys k)) = .ok fr) :
    (fr.map fun q : Nat × Nat => (q.1 : ZMod sh.prime)) =
        (List.range' i m).map (shareDen (fun j => (xs j : ZMod sh.prime)) n) ∧
      (fr.map fun q : Nat × Nat => (q.2 : ZMod sh.prime)) = (List.range' i m).map fun k => (np : ZMod sh.prime) * ys k := by
  induction m generalizing i fr with
  | zero =>
    obtain rfl := Except.ok.inj hr
    exact ⟨rfl, rfl⟩
  | succ m ih =>
    rw [List.range'_succ, List.map_cons] at hr
    simp only [Shape.fractions, bind_eq_ok] at hr
    obtain ⟨den, hden, num, hnum, more, hmore, hr⟩ := hr
    obtain rfl := Except.ok.inj hr
    obtain ⟨hdens, hnums⟩ := ih (by omega) hmore
    rw [List.map_cons, List.map_cons, hdens, hnums, h.denominator_cast (by omega) hden, h.mul_cast hnum]
    exact ⟨rfl, rfl⟩

/-- The terms over the common denominator from share `i` on, modulo `p` (rule R256). -/
theorem Shape.Derived.commonTerms_cast (h : sh.Derived cfg) {dens nums ts : List Nat} {N D : Nat → ZMod sh.prime}
    {n i m : Nat} (him : i + m ≤ n) (hdens : (dens.map fun w : Nat => (w : ZMod sh.prime)) = (List.range n).map D)
    (hnums : (nums.map fun w : Nat => (w : ZMod sh.prime)) = (List.range' i m).map N)
    (hr : sh.commonTerms dens i nums = .ok ts) :
    (ts.map fun w : Nat => (w : ZMod sh.prime)) =
      (List.range' i m).map fun k => N k * ∏ j ∈ (Finset.range n).erase k, D j := by
  induction m generalizing i nums ts with
  | zero =>
    obtain rfl : nums = [] := List.map_eq_nil_iff.mp hnums
    obtain rfl := Except.ok.inj hr
    rfl
  | succ m ih =>
    obtain ⟨num, rest, rfl⟩ : ∃ num rest, nums = num :: rest := by
      cases nums with
      | nil => simp at hnums
      | cons num rest => exact ⟨num, rest, rfl⟩
    rw [List.range'_succ, List.map_cons, List.map_cons, List.cons.injEq] at hnums
    simp only [Shape.commonTerms, bind_eq_ok] at hr
    obtain ⟨t, ht, more, hmore, hr⟩ := hr
    obtain rfl := Except.ok.inj hr
    rw [List.map_cons, ih (by omega) hnums.2 hmore, h.foldlM_mul_cast ht, ← List.eraseIdx_map, hdens,
      eraseIdx_map_range _ (by omega), prod_map_range_erase, hnums.1]
    rfl

/-- `join` of a share run given by its points and values. -/
theorem Shape.join_eq (sh : Shape) (xs ys : Nat → Nat) (n : Nat) :
    sh.join ((List.range n).map fun i => (xs i, ys i)) = (do
      let np ← sh.product ((List.range n).map xs)
      let fr ← sh.fractions ((List.range n).map xs) np 0 ((List.range' 0 n).map fun k => (xs k, ys k))
      let d ← sh.product (fr.map Prod.fst)
      let ts ← sh.commonTerms (fr.map Prod.fst) 0 (fr.map Prod.snd)
      let sum ← sh.sum ts
      let dinv ← sh.inv d
      let r ← sh.mul sum dinv
      pure (sh.fred r)) := by
  have hpoints : ((List.range n).map fun i => (xs i, ys i)).map Prod.fst = (List.range n).map xs := by
    rw [List.map_map]
    rfl
  rw [Shape.join, hpoints, ← List.range_eq_range']

/-- What `join` computes, modulo `p` (rules R256, R259). -/
theorem Shape.Derived.join_cast (h : sh.Derived cfg) (hinv : sh.invOk = true) {xs ys : Nat → Nat} {n r : Nat}
    (hr : sh.join ((List.range n).map fun i => (xs i, ys i)) = .ok r) :
    (r : ZMod sh.prime) =
      shareSum (fun i => (xs i : ZMod sh.prime)) (fun i => (ys i : ZMod sh.prime)) n *
        shareDenProd (fun i => (xs i : ZMod sh.prime)) n ^ (sh.prime - 2) := by
  simp only [Shape.join_eq, bind_eq_ok] at hr
  obtain ⟨np, hnp, fr, hfr, d, hd, ts, hts, sum, hsum, dinv, hdinv, v, hv, hr⟩ := hr
  obtain rfl := Except.ok.inj hr
  obtain ⟨hdens, hnums⟩ := h.fractions_cast (by omega) hfr
  have hnp' : (np : ZMod sh.prime) = ∏ j ∈ Finset.range n, (xs j : ZMod sh.prime) := by
    rw [h.product_cast hnp, List.map_map, ← prod_map_range]
    rfl
  have hdens' : ((fr.map Prod.fst).map fun w : Nat => (w : ZMod sh.prime)) =
      (List.range n).map (shareDen (fun j => (xs j : ZMod sh.prime)) n) := by
    rw [List.map_map, List.range_eq_range', ← hdens]
    rfl
  have hnums' : ((fr.map Prod.snd).map fun w : Nat => (w : ZMod sh.prime)) =
      (List.range' 0 n).map fun k => (np : ZMod sh.prime) * ys k := by
    rw [List.map_map, ← hnums]
    rfl
  have hts' := h.commonTerms_cast (by omega) hdens' hnums' hts
  have hsum' : (sum : ZMod sh.prime) =
      shareSum (fun i => (xs i : ZMod sh.prime)) (fun i => (ys i : ZMod sh.prime)) n := by
    rw [h.sum_cast hsum, hts', hnp', ← List.range_eq_range']
    rfl
  rw [sh.fred_cast, h.mul_cast hv, hsum', h.inv_cast hinv hdinv, h.product_cast hd, hdens', prod_map_range]
  rfl

end

/-! When `JOIN` completes, and when a difference underflows (rules R187, R256). -/

theorem foldlM_completes {α β : Type} {P : α → Prop} {f : α → β → Except ErrorKind α} {l : List β} {init : α}
    (hf : ∀ a, P a → ∀ b ∈ l, Completes P (f a b)) (h : P init) : Completes P (l.foldlM f init) := by
  induction l generalizing init with
  | nil => exact .ok h
  | cons b l ih =>
    exact (hf init h b (by simp)).bind fun a ha => ih (fun a ha b hb => hf a ha b (by simp [hb])) ha

/-- A loop whose steps complete or fail with one kind, and one of them always fails, fails with that kind. -/
theorem foldlM_error {α β : Type} {P : α → Prop} {f : α → β → Except ErrorKind α} {l : List β} {init : α} {k : ErrorKind}
    (hf : ∀ a, P a → ∀ b ∈ l, Completes P (f a b) ∨ f a b = .error k) (h : P init)
    (hbad : ∃ b ∈ l, ∀ a, f a b = .error k) : l.foldlM f init = .error k := by
  induction l generalizing init with
  | nil => simp at hbad
  | cons b l ih =>
    rw [List.foldlM_cons]
    rcases hf init h b (by simp) with ⟨a, hab, ha⟩ | herr
    · rw [hab, ok_bind]
      obtain ⟨c, hc, hcbad⟩ := hbad
      rcases List.mem_cons.mp hc with rfl | hc
      · rw [hcbad init] at hab
        cases hab
      · exact ih (fun a ha b hb => hf a ha b (by simp [hb])) ha ⟨c, hc, hcbad⟩
    · rw [herr, error_bind]

section
variable {cfg : Config} {sh : Shape} {xs ys : Nat → Nat} {n : Nat}

/-- Weakly reduced shares. -/
def Shape.SharesReduced (sh : Shape) (xs ys : Nat → Nat) (n : Nat) : Prop :=
  ∀ i < n, sh.WeaklyReduced (xs i) ∧ sh.WeaklyReduced (ys i)

theorem Shape.SharesReduced.points_reduced (h : sh.SharesReduced xs ys n) :
    ∀ v ∈ (List.range n).map xs, sh.WeaklyReduced v :=
  List.forall_mem_map.mpr fun i hi => (h i (List.mem_range.mp hi)).1

theorem Shape.Derived.weaklyReduced_zero (h : sh.Derived cfg) : sh.WeaklyReduced 0 :=
  lt_of_le_of_lt (Nat.zero_le 1) h.weaklyReduced_one

theorem Shape.Regular.product_completes (hreg : sh.Regular) (h : sh.Derived cfg) {vs : List Nat}
    (hvs : ∀ v ∈ vs, sh.WeaklyReduced v) : Completes sh.WeaklyReduced (sh.product vs) := by
  cases vs with
  | nil => exact .ok h.weaklyReduced_one
  | cons v vs =>
    rw [List.forall_mem_cons] at hvs
    exact foldlM_completes (fun a ha b hb => hreg.closedUnderMul h a b ha (hvs.2 b hb)) hvs.1

theorem Shape.Regular.sum_completes (hreg : sh.Regular) (h : sh.Derived cfg) {vs : List Nat}
    (hvs : ∀ v ∈ vs, sh.WeaklyReduced v) : Completes sh.WeaklyReduced (sh.sum vs) := by
  cases vs with
  | nil => exact .ok h.weaklyReduced_zero
  | cons v vs =>
    rw [List.forall_mem_cons] at hvs
    exact foldlM_completes (fun a ha b hb => hreg.add_completes h ha (hvs.2 b hb)) hvs.1

theorem Shape.Regular.denStep_completes (hreg : sh.Regular) (h : sh.Derived cfg) {xi den xj : Nat}
    (hden : sh.WeaklyReduced den) (hxj : sh.WeaklyReduced xj) (hle : xi ≤ xj + sh.prime) :
    Completes sh.WeaklyReduced (sh.denStep xi den xj) :=
  Completes.bind (hreg.sub_completes h hxj hle) fun d hd => hreg.closedUnderMul h den d hden hd

theorem Shape.denStep_underflow {xi xj : Nat} (hlt : xj + sh.prime < xi) (den : Nat) :
    sh.denStep xi den xj = .error .subUnderflow := by
  rw [Shape.denStep, Shape.sub_underflow hlt, error_bind]

theorem Shape.Regular.denominator_completes (hreg : sh.Regular) (h : sh.Derived cfg) (hshares : sh.SharesReduced xs ys n)
    {i : Nat} (hi : i < n) (hle : ∀ j < n, xs i ≤ xs j + sh.prime) :
    Completes sh.WeaklyReduced (sh.denominator ((List.range n).map xs) i (xs i)) := by
  rw [sh.denominator_eq hi]
  refine foldlM_completes (fun den hden xj hxj => ?_) (hshares i hi).1
  obtain ⟨j, hj, rfl⟩ := List.mem_map.mp hxj
  have hjn := List.mem_range.mp (List.mem_of_mem_erase hj)
  exact hreg.denStep_completes h hden (hshares j hjn).1 (hle j hjn)

theorem Shape.Regular.denominator_underflow (hreg : sh.Regular) (h : sh.Derived cfg) (hshares : sh.SharesReduced xs ys n)
    {i : Nat} (hi : i < n) (hbad : ∃ j < n, xs j + sh.prime < xs i) :
    sh.denominator ((List.range n).map xs) i (xs i) = .error .subUnderflow := by
  rw [sh.denominator_eq hi]
  refine foldlM_error (fun den hden xj hxj => ?_) (hshares i hi).1 ?_
  · obtain ⟨j, hj, rfl⟩ := List.mem_map.mp hxj
    have hjn := List.mem_range.mp (List.mem_of_mem_erase hj)
    rcases Nat.lt_or_ge (xs j + sh.prime) (xs i) with hlt | hle
    · exact .inr (Shape.denStep_underflow hlt den)
    · exact .inl (hreg.denStep_completes h hden (hshares j hjn).1 hle)
  · obtain ⟨j, hj, hlt⟩ := hbad
    have hne : j ≠ i := by
      rintro rfl
      omega
    refine ⟨xs j, List.mem_map_of_mem ?_, Shape.denStep_underflow hlt⟩
    exact (List.mem_erase_of_ne hne).mpr (List.mem_range.mpr hj)

/-- Numerators and denominators are weakly reduced. -/
def Shape.FractionsReduced (sh : Shape) (fr : List (Nat × Nat)) : Prop :=
  ∀ q ∈ fr, sh.WeaklyReduced q.1 ∧ sh.WeaklyReduced q.2

theorem Shape.Regular.fractions_completes (hreg : sh.Regular) (h : sh.Derived cfg) (hshares : sh.SharesReduced xs ys n)
    {np : Nat} (hnp : sh.WeaklyReduced np) (hle : ∀ i < n, ∀ j < n, xs i ≤ xs j + sh.prime) {i m : Nat}
    (him : i + m ≤ n) :
    Completes sh.FractionsReduced
      (sh.fractions ((List.range n).map xs) np i ((List.range' i m).map fun k => (xs k, ys k))) := by
  induction m generalizing i with
  | zero => exact .ok (by simp [Shape.FractionsReduced])
  | succ m ih =>
    have hi : i < n := by omega
    rw [List.range'_succ, List.map_cons]
    refine (hreg.denominator_completes h hshares hi (hle i hi)).bind fun den hden => ?_
    refine (hreg.closedUnderMul h np (ys i) hnp (hshares i hi).2).bind fun num hnum => ?_
    exact (ih (by omega)).bind fun more hmore => .ok (List.forall_mem_cons.mpr ⟨⟨hden, hnum⟩, hmore⟩)

theorem Shape.Regular.fractions_underflow (hreg : sh.Regular) (h : sh.Derived cfg) (hshares : sh.SharesReduced xs ys n)
    {np : Nat} (hnp : sh.WeaklyReduced np) {i m : Nat} (him : i + m ≤ n)
    (hbad : ∃ k, i ≤ k ∧ k < i + m ∧ ∃ j < n, xs j + sh.prime < xs k) :
    sh.fractions ((List.range n).map xs) np i ((List.range' i m).map fun k => (xs k, ys k)) = .error .subUnderflow := by
  induction m generalizing i with
  | zero => omega
  | succ m ih =>
    have hi : i < n := by omega
    rw [List.range'_succ, List.map_cons, Shape.fractions]
    by_cases hfirst : ∃ j < n, xs j + sh.prime < xs i
    · rw [hreg.denominator_underflow h hshares hi hfirst, error_bind]
    · obtain ⟨den, hden, -⟩ := hreg.denominator_completes h hshares hi fun j hj => by
        by_contra hgt
        exact hfirst ⟨j, hj, by omega⟩
      obtain ⟨num, hnum, -⟩ := hreg.closedUnderMul h np (ys i) hnp (hshares i hi).2
      obtain ⟨k, hik, hkm, hk⟩ := hbad
      have hne : i ≠ k := by
        rintro rfl
        exact hfirst hk
      rw [hden, ok_bind, hnum, ok_bind, ih (by omega) ⟨k, by omega, by omega, hk⟩, error_bind]

theorem Shape.Regular.commonTerms_completes (hreg : sh.Regular) (h : sh.Derived cfg) {dens nums : List Nat}
    (hdens : ∀ w ∈ dens, sh.WeaklyReduced w) (hnums : ∀ w ∈ nums, sh.WeaklyReduced w) (i : Nat) :
    Completes (fun ts => ∀ t ∈ ts, sh.WeaklyReduced t) (sh.commonTerms dens i nums) := by
  induction nums generalizing i with
  | nil => exact .ok (by simp)
  | cons num rest ih =>
    rw [List.forall_mem_cons] at hnums
    have hterm : Completes sh.WeaklyReduced ((dens.eraseIdx i).foldlM sh.mul num) :=
      foldlM_completes (fun a ha b hb => hreg.closedUnderMul h a b ha (hdens b (List.mem_of_mem_eraseIdx hb))) hnums.1
    exact hterm.bind fun t ht => (ih hnums.2 _).bind fun more hmore => .ok (List.forall_mem_cons.mpr ⟨ht, hmore⟩)

theorem Shape.Regular.join_completes (hreg : sh.Regular) (h : sh.Derived cfg) (hshares : sh.SharesReduced xs ys n)
    (hle : ∀ i < n, ∀ j < n, xs i ≤ xs j + sh.prime) :
    Completes sh.Canonical (sh.join ((List.range n).map fun i => (xs i, ys i))) := by
  have hmul := hreg.closedUnderMul h
  rw [Shape.join_eq]
  refine (hreg.product_completes h hshares.points_reduced).bind fun np hnp => ?_
  refine (hreg.fractions_completes h hshares hnp hle (by omega)).bind fun fr hfr => ?_
  have hdens : ∀ w ∈ fr.map Prod.fst, sh.WeaklyReduced w := List.forall_mem_map.mpr fun q hq => (hfr q hq).1
  have hnums : ∀ w ∈ fr.map Prod.snd, sh.WeaklyReduced w := List.forall_mem_map.mpr fun q hq => (hfr q hq).2
  refine (hreg.product_completes h hdens).bind fun d hd => ?_
  refine (hreg.commonTerms_completes h hdens hnums 0).bind fun ts hts => ?_
  refine (hreg.sum_completes h hts).bind fun sum hsum => (hmul.inv hd).bind fun dinv hdinv => ?_
  exact (hmul sum dinv hsum hdinv).bind fun r hr => .ok (hreg.fred_canonical h hr)

theorem Shape.Regular.join_underflow (hreg : sh.Regular) (h : sh.Derived cfg) (hshares : sh.SharesReduced xs ys n)
    (hbad : ∃ i < n, ∃ j < n, xs j + sh.prime < xs i) :
    sh.join ((List.range n).map fun i => (xs i, ys i)) = .error .subUnderflow := by
  obtain ⟨i, hi, hj⟩ := hbad
  obtain ⟨np, hnp, hnpw⟩ := hreg.product_completes h hshares.points_reduced
  rw [Shape.join_eq, hnp, ok_bind,
    hreg.fractions_underflow h hshares hnpw (by omega) ⟨i, Nat.zero_le i, by omega, hj⟩, error_bind]

end

/-! How `JOIN` ends. -/

section
variable {s : State} {sh : Shape} {d a : Reg} {parts : Imm32} {xs ys : Nat → Nat}

/-- The outcome of `JOIN` on a run of shares that all hold a value. -/
theorem exec_join (h : Ready s sh [d]) (hinv : sh.invOk = true) (hparts : 2 ≤ parts.toNat)
    (hmax : parts.toNat ≤ s.cfg.partsMax) (hrun : a.toNat + 2 * parts.toNat ≤ s.cfg.nreg)
    (hshares : ∀ i < parts.toNat, s.elem (a.toNat + 2 * i) = some (xs i) ∧ s.elem (a.toNat + 2 * i + 1) = some (ys i)) :
    exec (.join d a parts) s = ended s 0x41 d (sh.join ((List.range parts.toNat).map fun i => (xs i, ys i))) := by
  change execJoin d a parts s = _
  rw [execJoin, State.needShape_of_some h.1, ok_bind, hinv, require_true, ok_bind, require_of hparts, ok_bind,
    State.checkRegs_of_lt h.2, ok_bind, State.checkRun_of_le hrun, ok_bind, require_of hmax, ok_bind,
    State.readShares_of_elems hshares, ok_bind, commit_write]
  rfl

end

/-- Settles O56: every step completes, or the first difference that underflows fails. -/
theorem joinCompletes : Obligations.JoinCompletes := by
  intro s sh d a parts xs ys hs h hreg hinv hparts hmax hrun hshares
  have hd := hs.shape sh h.1
  have hreduced : sh.SharesReduced xs ys parts.toNat := fun i hi => (hshares i hi).2.2
  rw [exec_join h hinv hparts hmax hrun fun i hi => ⟨(hshares i hi).1, (hshares i hi).2.1⟩]
  refine ⟨fun hle => (hreg.join_completes hd hreduced hle).ended _ _ _, fun hbad => ?_⟩
  rw [hreg.join_underflow hd hreduced hbad]
  rfl

/-- The value `JOIN` writes when no point is above another plus `p`, given what it is modulo `p`. -/
theorem exec_join_of_cast {s : State} {sh : Shape} {d a : Reg} {parts : Imm32} {xs ys : Nat → Nat} {v : Nat} (hs : s.Inv)
    (h : Ready s sh [d]) (hreg : sh.Regular) (hinv : sh.invOk = true) (hparts : 2 ≤ parts.toNat)
    (hmax : parts.toNat ≤ s.cfg.partsMax) (hrun : a.toNat + 2 * parts.toNat ≤ s.cfg.nreg)
    (hshares : ∀ i < parts.toNat, s.elem (a.toNat + 2 * i) = some (xs i) ∧ s.elem (a.toNat + 2 * i + 1) = some (ys i) ∧
      sh.WeaklyReduced (xs i) ∧ sh.WeaklyReduced (ys i))
    (hle : ∀ i < parts.toNat, ∀ j < parts.toNat, xs i ≤ xs j + sh.prime)
    (hv : shareSum (fun i => (xs i : ZMod sh.prime)) (fun i => (ys i : ZMod sh.prime)) parts.toNat *
      shareDenProd (fun i => (xs i : ZMod sh.prime)) parts.toNat ^ (sh.prime - 2) = v) :
    exec (.join d a parts) s = wrote s d (v % sh.prime) := by
  have hd := hs.shape sh h.1
  obtain ⟨r, hr, hcanon⟩ := hreg.join_completes hd (fun i hi => (hshares i hi).2.2) hle
  have hmod : r ≡ v [MOD sh.prime] :=
    (ZMod.natCast_eq_natCast_iff _ _ _).mp ((hd.join_cast hinv hr).trans hv)
  rw [exec_join h hinv hparts hmax hrun fun i hi => ⟨(hshares i hi).1, (hshares i hi).2.1⟩, hr, ended_ok,
    hcanon.eq_mod hmod]

/-- An inverter's exponent is not zero. -/
theorem Shape.Derived.exponent_pos {cfg : Config} {sh : Shape} (h : sh.Derived cfg) (hinv : sh.invOk = true) :
    0 < sh.prime - 2 := by
  have hls := h.invOk_iff.mp hinv
  have hw := h.wlow_bounds.1
  rw [h.exponent_identity (by omega)]
  omega

/-- Settles O58: the common denominator vanishes modulo `p`, and so does its power. -/
theorem joinDegeneratePointsGiveZero : Obligations.JoinDegeneratePointsGiveZero := by
  intro s sh d a parts xs ys hs h hreg hinv hparts hmax hrun hshares hle hdegenerate
  have hd := hs.shape sh h.1
  have hden : shareDenProd (fun i => (xs i : ZMod sh.prime)) parts.toNat = 0 := by
    refine shareDenProd_eq_zero ?_
    rcases hdegenerate with ⟨i, hi, hzero⟩ | ⟨i, hi, j, hj, hne, heq⟩
    · exact .inl ⟨i, hi, by simpa using (ZMod.natCast_eq_natCast_iff _ _ _).mpr hzero⟩
    · exact .inr ⟨i, hi, j, hj, hne, (ZMod.natCast_eq_natCast_iff _ _ _).mpr heq⟩
  have hexec := exec_join_of_cast (v := 0) hs h hreg hinv hparts hmax hrun hshares hle
    (by rw [hden, zero_pow (hd.exponent_pos hinv).ne', mul_zero, Nat.cast_zero])
  rwa [Nat.zero_mod] at hexec

/-- The polynomial with the coefficients `co 0, …, co (n - 1)`. -/
noncomputable def sharePoly {K : Type} [Field K] (co : Nat → K) (n : Nat) : Polynomial K :=
  ∑ k ∈ Finset.range n, Polynomial.monomial k (co k)

section
variable {K : Type} [Field K] (co : Nat → K) (n : Nat)

theorem sharePoly_degree_lt : (sharePoly co n).degree < n := by
  refine (Polynomial.degree_sum_le _ _).trans_lt ((Finset.sup_lt_iff (WithBot.bot_lt_coe n)).mpr fun k hk => ?_)
  exact (Polynomial.degree_monomial_le k _).trans_lt (WithBot.coe_lt_coe.mpr (Finset.mem_range.mp hk))

theorem sharePoly_eval (z : K) : (sharePoly co n).eval z = ∑ k ∈ Finset.range n, co k * z ^ k := by
  rw [sharePoly, Polynomial.eval_finsetSum]
  exact Finset.sum_congr rfl fun k _ => Polynomial.eval_monomial

theorem sharePoly_eval_zero (hn : 0 < n) : (sharePoly co n).eval 0 = co 0 := by
  obtain ⟨m, rfl⟩ : ∃ m, n = m + 1 := ⟨n - 1, by omega⟩
  rw [sharePoly_eval, Finset.sum_range_succ']
  simp

end

/-- In the field of a prime `p`, the power `p - 2` is the inverse (rule R220). -/
theorem pow_sub_two_eq_inv {p : Nat} [Fact p.Prime] {z : ZMod p} (hz : z ≠ 0) : z ^ (p - 2) = z⁻¹ := by
  have htwo := (Fact.out : p.Prime).two_le
  refine eq_inv_of_mul_eq_one_left ?_
  rw [← pow_succ, show p - 2 + 1 = p - 1 by omega, ZMod.pow_card_sub_one_eq_one hz]

/-- Settles O57: the sum over the common denominator is the interpolated value at zero. -/
theorem joinRecoversSecret : Obligations.JoinRecoversSecret := by
  intro s sh d a parts xs ys co hs h hreg hinv hp hparts hmax hrun hshares hle hzero hdistinct hpoly
  have : Fact sh.prime.Prime := ⟨hp⟩
  have hinj : Set.InjOn (fun i => (xs i : ZMod sh.prime)) (Finset.range parts.toNat) := fun i hi j hj hij =>
    hdistinct i (by simpa using hi) j (by simpa using hj) ((ZMod.natCast_eq_natCast_iff _ _ _).mp hij)
  have hne : ∀ i < parts.toNat, (xs i : ZMod sh.prime) ≠ 0 := fun i hi h0 =>
    hzero i hi ((ZMod.natCast_eq_zero_iff _ _).mp h0)
  have hvalues : ∀ i < parts.toNat, (ys i : ZMod sh.prime) =
      (sharePoly (fun k => (co k : ZMod sh.prime)) parts.toNat).eval (xs i : ZMod sh.prime) := fun i hi => by
    rw [sharePoly_eval, (ZMod.natCast_eq_natCast_iff _ _ _).mpr (hpoly i hi)]
    push_cast
    rfl
  have hden : shareDenProd (fun i => (xs i : ZMod sh.prime)) parts.toNat ≠ 0 :=
    Finset.prod_ne_zero_iff.mpr fun i hi => shareDen_ne_zero hinj hne (Finset.mem_range.mp hi)
  refine exec_join_of_cast hs h hreg hinv hparts hmax hrun hshares hle ?_
  rw [pow_sub_two_eq_inv hden, ← div_eq_mul_inv, shareSum_div_eq_eval hinj hne (sharePoly_degree_lt _ _) hvalues,
    sharePoly_eval_zero _ _ (by omega)]

end Sys2Proof.Machine
end
